-- ==== Sys2Proof/Word.lean ====
section
/-! DEFINITION. The word types of `bloom_filter_probe_engine` (spec R6, R10, R11): every host transaction moves a
32-bit word, the item buffer holds bytes. All values are unsigned (R11). -/

namespace Sys2Proof

/-- One byte of the item buffer (R20, R37). -/
abbrev Byte := BitVec 8

/-- One register, one transaction datum, one command word (R6: register width 32). -/
abbrev Word := BitVec 32

end Sys2Proof
end

