-- ==== Sys2Proof/Syntax.lean ====
section
/-! DEFINITION. The four commands of the block (spec R103, one constructor per row of opcode_table.json). -/

namespace Sys2Proof

/-- A command word's meaning as syntax (R101, R102, R105). -/
inductive Instr where
  /-- INIT, format C0 (R120). -/
  | init
  /-- INSERT, format CL, with the item length in bytes (R140). -/
  | insert (len : Nat)
  /-- QUERY, format CL, with the item length in bytes (R150). -/
  | query (len : Nat)
  /-- RELEASE, format C0 (R125). -/
  | release
  deriving DecidableEq, Repr

end Sys2Proof
end

