-- ==== Sys2Proof/WellFormed.lean ====
section
/-! DEFINITION. Which terms of `Instr` a command word can carry (spec R102: `len` is the 16-bit field [31:16],
0 .. 65535). That `len` is at most `ITEM_MAX` is no matter of form: a longer one is a well-formed word that is rejected
with `ItemTooLong` (R104). -/

namespace Sys2Proof

/-- The instruction has an encoding (R101, R102). -/
def Instr.wellFormed : Instr → Bool
  | .init => true
  | .insert len => decide (len < 65536)
  | .query len => decide (len < 65536)
  | .release => true

end Sys2Proof
end

