-- ==== Sys2Proof/Decode.lean ====
section
/-! DEFINITION. The decoder of command words, total on 32-bit words (spec R105), the opcode map as data (R103), and the
encoder (R101, R102). A command is one 32-bit word delivered by a write to `CMD` (R100); it is not stored in memory and
has no byte order. -/

namespace Sys2Proof

/-- Why a word is illegal: the three cases R104 lists. All of them are reported as `IllegalCommand` (R195). -/
inductive IllegalWord where
  /-- Opcode 0x00, or 0x05 to 0xFF. -/
  | unusedOpcode
  /-- An INIT or RELEASE word with any of bits [31:8] set. -/
  | reservedBitsC0
  /-- An INSERT or QUERY word with any of bits [15:8] set. -/
  | reservedBitsCL
  deriving DecidableEq, Repr

/-- `opcode = w[7:0]` (R103). -/
def opcodeField (w : Word) : BitVec 8 := w.extractLsb' 0 8

/-- Bits [15:8], reserved in format CL (R102). -/
def reservedFieldCL (w : Word) : BitVec 8 := w.extractLsb' 8 8

/-- Bits [31:8], reserved in format C0 (R101). -/
def reservedFieldC0 (w : Word) : BitVec 24 := w.extractLsb' 8 24

/-- `len = w[31:16]`, a byte count, not scaled and not shifted (R102, R107). -/
def lenField (w : Word) : BitVec 16 := w.extractLsb' 16 16

/-- Format C0: the instruction if the reserved bits are zero (R101, R104). -/
def decodeC0 (i : Instr) (w : Word) : Except IllegalWord Instr :=
  if reservedFieldC0 w = 0 then .ok i else .error .reservedBitsC0

/-- Format CL: the instruction with its `len` if the reserved bits are zero (R102, R104). -/
def decodeCL (mk : Nat → Instr) (w : Word) : Except IllegalWord Instr :=
  if reservedFieldCL w = 0 then .ok (mk (lenField w).toNat) else .error .reservedBitsCL

/-- `decode(w)` (R105), by the opcode map of R103; `ILLEGAL` is an error with the reason of R104. -/
def decode (w : Word) : Except IllegalWord Instr :=
  if opcodeField w = 0x01 then decodeC0 .init w
  else if opcodeField w = 0x02 then decodeCL .insert w
  else if opcodeField w = 0x03 then decodeCL .query w
  else if opcodeField w = 0x04 then decodeC0 .release w
  else .error .unusedOpcode

/-- The word of a well-formed instruction (R101, R102): `{len, 0x00, opcode}` or `{0, opcode}`. -/
def encode : Instr → Word
  | .init => 0x00000001
  | .insert len => (BitVec.ofNat 16 len) ++ (0x0002 : BitVec 16)
  | .query len => (BitVec.ofNat 16 len) ++ (0x0003 : BitVec 16)
  | .release => 0x00000004

/-- One row of the opcode map (R103). -/
structure OpcodeRow where
  mnemonic : String
  matchBits : Word
  mask : Word
  deriving DecidableEq, Repr

/-- The opcode map of R103, as opcode_table.json writes it. -/
def opcodeRows : List OpcodeRow :=
  [⟨"INIT", 0x00000001, 0xFFFFFFFF⟩, ⟨"INSERT", 0x00000002, 0x0000FFFF⟩,
   ⟨"QUERY", 0x00000003, 0x0000FFFF⟩, ⟨"RELEASE", 0x00000004, 0xFFFFFFFF⟩]

/-- "A word `w` selects a row when `w AND mask = match`" (R103). -/
def OpcodeRow.selectedBy (r : OpcodeRow) (w : Word) : Bool := decide (w &&& r.mask = r.matchBits)

/-- The mnemonic an instruction has in the opcode map. -/
def mnemonicOf : Instr → String
  | .init => "INIT"
  | .insert _ => "INSERT"
  | .query _ => "QUERY"
  | .release => "RELEASE"

/-- The decoder on a word numbered as opcode_table.json numbers it: a command is one 32-bit word (R100), so a word of
more than 32 bits is none, and the bits from `nbits` up are zero. -/
def decodeTableWord (nbits w : Nat) : Option Instr :=
  if w < 4294967296 then
    match decode (BitVec.ofNat 32 (w % 2 ^ nbits)) with
    | .ok i => some i
    | .error _ => none
  else none

end Sys2Proof
end

