-- ==== Sys2Proof/Config.lean ====
section
/-! DEFINITION. What an implementation of the block fixes (spec R5) and what the spec leaves open about it. The
parameters are not state (R20). `Params` is the record of R5 with its constraints; `Params.chip` is the block the model
talks about, built from constants without a body, so that nothing can be proved of them but what R5 and R163 say. -/

namespace Sys2Proof

/-- The three implementation parameters of R5, with R5's constraints. -/
structure Params where
  /-- `MAX_WIDTH`: the number of bits of the physical bit array, the largest legal `width` (R5). -/
  maxWidth : Nat
  /-- `ITEM_MAX`: the size of the item buffer in bytes, the longest item a command can name (R5). -/
  itemMax : Nat
  /-- `HASH`: total, deterministic, 32-bit seed and 32-bit output (R5, R163). -/
  hash : List Byte → Word → Word
  maxWidth_pos : 1 ≤ maxWidth
  maxWidth_le : maxWidth ≤ 4294967295
  itemMax_words : itemMax % 4 = 0
  itemMax_ge : 4 ≤ itemMax
  itemMax_le : itemMax ≤ 3840

/-- `MAX_WIDTH - 1` of this block: any of the values R5 allows (U2 of 93). Assumption 1. -/
opaque Config.maxWidthLessOne : Fin 4294967295

/-- `ITEM_MAX / 4 - 1` of this block: any of the values R5 allows (U3 of 93). Assumption 1. -/
opaque Config.itemWordsLessOne : Fin 960

/-- `HASH` of this block: any function (R163; U1 of 93). Assumption 1. -/
opaque Config.hash : List Byte → Word → Word

/-- The parameters of the block being modelled: every legal choice of R5 is a value these may have. -/
def Params.chip : Params where
  maxWidth := Config.maxWidthLessOne.val + 1
  itemMax := 4 * (Config.itemWordsLessOne.val + 1)
  hash := Config.hash
  maxWidth_pos := by omega
  maxWidth_le := by have := Config.maxWidthLessOne.isLt; omega
  itemMax_words := by omega
  itemMax_ge := by omega
  itemMax_le := by have := Config.itemWordsLessOne.isLt; omega

/-- A `false_positive_rate` as a host may hold it: a real number (R180), or the NaN that U11 of 93 names. -/
inductive HostRate where
  | number (f : ℝ)
  | nan

/-- The host's real arithmetic in the sizing formulas. Its precision and rounding are not stated (R184, U10 of 93), so it
is a parameter of the host function, and no part of the block. Assumption 8. -/
structure HostArith where
  /-- `trunc(raw_w)` (R181), from the rate and `max_items`. -/
  truncRawWidth : ℝ → Nat → Int
  /-- `trunc(raw_k)` (R182), from the width and `max_items`. -/
  truncRawCount : Nat → Nat → Int

end Sys2Proof
end

