-- ==== Sys2Proof/Machine/State.lean ====
section
/-! DEFINITION. The state of the block (spec R20) as plain data, with the model's own two fields for what stands outside
the block (R8 to R10): the steps still to come, and the answer to the latest transaction. -/

namespace Sys2Proof.Machine

/-- `cur_op` (R20, R45): the command in progress, NONE when idle. -/
inductive Op where
  | none
  | init
  | insert
  | query
  | release
  deriving DecidableEq, Repr

/-- The errors of R190, by name. `bitWidthOverflow` is reserved and never produced by the block (R193). -/
inductive ErrorName where
  | invalidParameter
  | tooManyHashFunctions
  | bitWidthOverflow
  | outOfMemory
  | illegalCommand
  | notConfigured
  | alreadyConfigured
  | itemTooLong
  | countOverflow
  deriving DecidableEq, Repr

/-- The `resp` of a transaction (R10). -/
inductive Resp where
  | okay
  | error
  deriving DecidableEq, Repr

/-- What a transaction returns to the host (R10): a read answers `(resp, data)`, a write answers `resp`. -/
inductive Response where
  | read (resp : Resp) (data : Word)
  | write (resp : Resp)
  deriving DecidableEq, Repr

/-- One step of an execution (R9): a host transaction, an engine step, or a hardware reset. -/
inductive Event where
  /-- `RegRead(off)` (R10). -/
  | regRead (off : Nat)
  /-- `RegWrite(off, v)` (R10). -/
  | regWrite (off : Nat) (v : Word)
  /-- One engine step (R50). -/
  | engine
  /-- Hardware reset (R220). -/
  | reset
  deriving DecidableEq, Repr

/-- The item buffer `item[0 .. ITEM_MAX-1]` (R20) as (byte index, byte) pairs, indexes strictly rising, no entry equal to
0x00, which is what an unlisted byte reads as: "every byte 0" at reset (R20, R220). -/
abbrev Memory := List Host.Cell

/-- The bits of `bit_array[0 .. width-1]` that are 1, by position, strictly rising (R20, R70). A position below `width`
that is not listed holds 0, which is what INIT leaves (R73). -/
abbrev BitSet := List Nat

/-- The state of the model. From `ie` to `bitArray`: "the complete state of the block" (R20), in R20's order. `busy` and
`irq` are computed, not stored (R20, R53). -/
structure State where
  /-- Interrupt enable. -/
  ie : Bool
  /-- A command has completed or been rejected since `done` was last cleared (R39). -/
  done : Bool
  /-- The most recent command word was rejected (R40). -/
  error : Bool
  /-- A filter exists (R41). -/
  ready : Bool
  /-- Result of the most recent QUERY (R42). -/
  hit : Bool
  /-- Sticky: the host wrote a busy-gated register while busy (R43). -/
  viol : Bool
  /-- Error code of the most recent command word, 0 if accepted (R190, R203). -/
  errCode : BitVec 8
  /-- Staged width (R28). -/
  cfgWidth : Word
  /-- Staged hash count, wider than `hash_count` so that nothing is truncated (R29). -/
  cfgHashCount : Word
  /-- Number of bits of `bit_array` in use (R30). -/
  width : Word
  /-- Number of probes of an INSERT (R31). -/
  hashCount : BitVec 8
  /-- Completed INSERTs since INIT (R32, R33). -/
  itemCount : BitVec 64
  /-- Probes made by the current or most recent INSERT or QUERY (R35, R45). -/
  idx : BitVec 8
  /-- The command in progress (R45, R46). -/
  curOp : Op
  /-- Item length latched for the command in progress (R20). -/
  curLen : BitVec 16
  /-- The item buffer (R37). -/
  item : Memory
  /-- `bit_array`, "existing only while `ready = 1`" and "defined on `0 .. width-1` only" (R55): `none` where its contents
  are unspecified, so that no value is chosen for them (U4, D28). Assumption 2. -/
  bitArray : Option BitSet
  /-- The model's own: the steps still to come, oldest first (R9). Whatever list stands here is one of the finite
  interleavings the spec allows (U9, U14); one without end is a stream outside the state (Execution.lean). Assumption 3. -/
  schedule : List Event
  /-- The model's own: what the latest transaction returned to the host (R10). Assumption 4. -/
  response : Option Response
  deriving DecidableEq, Repr

/-- Why the machine stops. -/
inductive Fault where
  /-- Raised by the INSERT and the QUERY probe step when the position has no bit with a value: `p < width` fails or there
  is no filter. R71 and R72 require `p < width`, R161 says that "there is no out-of-range access to define, and no
  division by zero can occur". Safe: no state that meets `Inv` (Safety.lean) reaches it. -/
  | bitWithoutValue
  deriving DecidableEq, Repr

/-- Why the machine declines an instruction. -/
inductive Refusal where
  /-- Raised by an arm of `exec` whose instruction has no meaning yet. Safe. No arm does. -/
  | notModelled (mnemonic : String)
  deriving DecidableEq, Repr

/-- The outcome of one step, or of one command word. -/
abbrev Result := Host.Outcome State Fault Refusal

/-- The state after hardware reset (R20, R54, R220): every element at its reset value, `bit_array` without a value, no
step scheduled and no transaction answered. -/
def State.reset : State where
  ie := false
  done := false
  error := false
  ready := false
  hit := false
  viol := false
  errCode := 0
  cfgWidth := 0
  cfgHashCount := 0
  width := 0
  hashCount := 0
  itemCount := 0
  idx := 0
  curOp := .none
  curLen := 0
  item := []
  bitArray := none
  schedule := []
  response := none

end Sys2Proof.Machine
end

