-- ==== Sys2Proof/Machine/Ops.lean ====
section
/-! DEFINITION. The named operations over the state: the two memories (spec R37, R70 to R73), the primitives of R12 that
end or reject a command (R52, R203), the acceptance checks (R201), and the processing of a command word (R106). -/

namespace Sys2Proof.Machine

/-! ### The item buffer -/

/-- What an item byte that is not listed reads as: "every byte 0" (R20, R220). -/
def unlistedByte : Byte := 0

/-- `item[n]` (R20). -/
def memRead : Memory → Nat → Byte
  | [], _ => unlistedByte
  | (a, b) :: m, n => if a = n then b else memRead m n

/-- The cell of `item[n] <- v` in the canonical form: nothing where `v` is what an unlisted byte reads as. -/
def memCell (n : Nat) (v : Byte) (m : Memory) : Memory :=
  if v = unlistedByte then m else (n, v) :: m

/-- `item[n] <- v` (R37), keeping the canonical form. -/
def memWrite : Memory → Nat → Byte → Memory
  | [], n, v => memCell n v []
  | (a, b) :: m, n, v =>
    if n < a then memCell n v ((a, b) :: m)
    else if n = a then memCell n v m
    else (a, b) :: memWrite m n v

/-- Every listed index is above `n`. -/
def memAbove (n : Nat) : Memory → Bool
  | [] => true
  | (a, _) :: m => decide (n < a) && memAbove n m

/-- The canonical form: indexes strictly rising, no entry equal to what an unlisted byte reads as. -/
def Memory.wf : Memory → Bool
  | [] => true
  | (a, b) :: m => decide (b ≠ unlistedByte) && memAbove a m && Memory.wf m

/-! ### The bit array -/

/-- Whether position `p` is listed, that is, holds 1. -/
def bitListed : BitSet → Nat → Bool
  | [], _ => false
  | q :: b, p => decide (q = p) || bitListed b p

/-- Position `p` set to 1, "idempotent if already set" (R72). -/
def bitInsert : BitSet → Nat → BitSet
  | [], p => [p]
  | q :: b, p => if p < q then p :: q :: b else if p = q then q :: b else q :: bitInsert b p

/-- Every listed position is above `p`. -/
def bitsAbove (p : Nat) : BitSet → Bool
  | [] => true
  | q :: b => decide (p < q) && bitsAbove p b

/-- The canonical form: positions strictly rising. -/
def BitSet.wf : BitSet → Bool
  | [] => true
  | q :: b => bitsAbove q b && BitSet.wf b

/-- `BitRead(p)` (R71): the bit, where it has a value; `none` at `p >= width` and where there is no filter (R55). -/
def bitRead (s : State) (p : Nat) : Option Bool :=
  match s.bitArray with
  | none => none
  | some b => if p < s.width.toNat then some (bitListed b p) else none

/-- `BitSet(p)` (R72): `bit_array[p] <- 1` and no other bit; `none` where `BitRead(p)` has no value. -/
def bitSet (s : State) (p : Nat) : Option State :=
  match s.bitArray with
  | none => none
  | some b => if p < s.width.toNat then some { s with bitArray := some (bitInsert b p) } else none

/-! ### The sequencer -/

/-- `busy = 1` exactly when `cur_op != NONE` (R20, R38). -/
def State.busy (s : State) : Bool := decide (s.curOp ≠ .none)

/-- `complete()` (R52): `cur_op <- NONE; cur_len <- 0; done <- 1`. -/
def complete (s : State) : State := { s with curOp := .none, curLen := 0, done := true }

/-- The code of an error (R190). -/
def errorCode : ErrorName → BitVec 8
  | .invalidParameter => 1
  | .tooManyHashFunctions => 2
  | .bitWidthOverflow => 3
  | .outOfMemory => 4
  | .illegalCommand => 5
  | .notConfigured => 6
  | .alreadyConfigured => 7
  | .itemTooLong => 8
  | .countOverflow => 9

/-- The clearing of the previous outcome, before a command word is examined (R106). With R205 it is the only way out of
the error state beside reset: the block has no return from an error. -/
def clearOutcome (s : State) : State := { s with hit := false, done := false, error := false, errCode := 0 }

/-- `reject(code)`, "the block's only trap entry" (R203). Nothing else is recorded (R200); control goes nowhere. -/
def reject (e : ErrorName) (s : State) : State :=
  { s with done := true, error := true, errCode := errorCode e }

/-- Acceptance of a command (R106, R46(a)). -/
def accept (op : Op) (len : Nat) (s : State) : State :=
  { s with curOp := op, curLen := BitVec.ofNat 16 len, idx := 0 }

/-- The mark a busy-gated write leaves while busy (R78, R43). -/
def violate (s : State) : State := { s with viol := true }

/-- Every state element at its reset value (R220, R221). The schedule and the answer belong to the host, not to the
block, and stay. Assumption 10. -/
def resetBlock (s : State) : State :=
  { State.reset with schedule := s.schedule, response := s.response }

/-- The host sees this answer to its transaction (R10). -/
def respond (r : Response) (s : State) : State := { s with response := some r }

/-- The largest value of `item_count` (R199). -/
def itemCountMax : BitVec 64 := BitVec.ofNat 64 18446744073709551615

/-- `first_failing_check(d)` (R201), with `none` for `d = ILLEGAL`: the first failing check in R201's order, read for
each command (R121, R140, R150, R125). -/
def firstFailingCheck (c : Params) (d : Option Instr) (s : State) : Option ErrorName :=
  match d with
  | none => some .illegalCommand
  | some .init =>
    if s.ready then some .alreadyConfigured
    else if s.cfgWidth = 0 ∨ s.cfgHashCount = 0 then some .invalidParameter
    else if 255 < s.cfgHashCount.toNat then some .tooManyHashFunctions
    else if c.maxWidth < s.cfgWidth.toNat then some .outOfMemory
    else none
  | some (.insert len) =>
    if !s.ready then some .notConfigured
    else if c.itemMax < len then some .itemTooLong
    else if s.itemCount = itemCountMax then some .countOverflow
    else none
  | some (.query len) =>
    if !s.ready then some .notConfigured
    else if c.itemMax < len then some .itemTooLong
    else none
  | some .release => if !s.ready then some .notConfigured else none

/-- "the command of d" (R106). An illegal word is never accepted. -/
def opOf : Option Instr → Op
  | none => .none
  | some .init => .init
  | some (.insert _) => .insert
  | some (.query _) => .query
  | some .release => .release

/-- "len of d if d is INSERT or QUERY, else 0" (R106). -/
def lenOf : Option Instr → Nat
  | some (.insert len) => len
  | some (.query len) => len
  | _ => 0

/-- A command word examined while idle (R106): clear the previous outcome, check, then reject or accept. -/
def processWord (c : Params) (d : Option Instr) (s : State) : State :=
  match firstFailingCheck c d (clearOutcome s) with
  | some e => reject e (clearOutcome s)
  | none => accept (opOf d) (lenOf d) (clearOutcome s)

/-- A command word written to `CMD` (R34): dropped with `viol <- 1` while busy (R78), else processed (R106). -/
def commandWord (c : Params) (d : Option Instr) (s : State) : State :=
  if s.busy then violate s else processWord c d s

end Sys2Proof.Machine
end

