-- ==== Sys2Proof/Machine/Operands.lean ====
section
/-! DEFINITION. The operands of the commands (spec R44, R107): the item `Item(n)` (R81), its packing in the words
`ITEM[j]` (R37, R80), and the probed position (R160). -/

namespace Sys2Proof.Machine

/-- `zext_32(i)` of the 8-bit probe index: the seed (R107, R160). -/
def seedOf (i : BitVec 8) : Word := i.setWidth 32

/-- `[item[k], ..., item[k+n-1]]`. -/
def itemFrom (m : Memory) (k : Nat) : Nat → List Byte
  | 0 => []
  | n + 1 => memRead m k :: itemFrom m (k + 1) n

/-- `Item(n)` (R81): the first `n` bytes of the item buffer. Bytes from `n` on take no part. -/
def itemBytes (s : State) (n : Nat) : List Byte := itemFrom s.item 0 n

/-- `P(x, i) = HASH(x, zext_32(i)) mod width` (R160), unsigned. -/
def position (c : Params) (x : List Byte) (i : BitVec 8) (width : Word) : Nat :=
  (c.hash x (seedOf i)).toNat % width.toNat

/-- The position of the next probe of the command in progress (R141, R151). -/
def probePosition (c : Params) (s : State) : Nat :=
  position c (itemBytes s s.curLen.toNat) s.idx s.width

/-- Byte `k` of a word, little-endian: bits `[8k+7 : 8k]` (R37, R80). -/
def wordByte (v : Word) (k : Nat) : Byte := v.extractLsb' (8 * k) 8

/-- `{item[j+3], item[j+2], item[j+1], item[j]}` (R37, R74). -/
def readItemWord (m : Memory) (j : Nat) : Word :=
  memRead m (j + 3) ++ memRead m (j + 2) ++ memRead m (j + 1) ++ memRead m j

/-- The four byte writes of a write to `ITEM` at item byte `j` (R37). -/
def writeItemWord (m : Memory) (j : Nat) (v : Word) : Memory :=
  memWrite (memWrite (memWrite (memWrite m j (wordByte v 0)) (j + 1) (wordByte v 1)) (j + 2) (wordByte v 2))
    (j + 3) (wordByte v 3)

end Sys2Proof.Machine
end

