-- ==== Sys2Proof/Machine/Flags.lean ====
section
/-! DEFINITION. The flags and the host-visible registers: the register map (spec R22 to R37), what a read of each
register returns, what a write of each writable register does. -/

namespace Sys2Proof.Machine

/-! ### The register map (10_state.md section 2) -/

def offId : Nat := 0x000
def offCapWidth : Nat := 0x004
def offCapItem : Nat := 0x008
def offCtrl : Nat := 0x00C
def offStatus : Nat := 0x010
def offErr : Nat := 0x014
def offCfgWidth : Nat := 0x018
def offCfgHashCount : Nat := 0x01C
def offWidth : Nat := 0x020
def offHashCount : Nat := 0x024
def offItemCountLo : Nat := 0x028
def offItemCountHi : Nat := 0x02C
def offCmd : Nat := 0x030
def offProbes : Nat := 0x034

/-- `ITEM_BASE` (R6). -/
def itemBase : Nat := 0x100

/-- The last word of the 4096-byte window (R6, R74). -/
def lastOffset : Nat := 0xFFC

/-- The value of `ID` (R6, R22). -/
def idValue : Word := 0x424C4D01

/-- "`off mod 4 != 0` or `off > 0xFFC`" (R74, R75, R76). -/
def offsetInvalid (off : Nat) : Bool := decide (off % 4 ≠ 0) || decide (lastOffset < off)

/-- `off` is in the window of `ITEM[j]` (R37, R74). -/
def offsetIsItem (c : Params) (off : Nat) : Bool :=
  decide (itemBase ≤ off) && decide (off < itemBase + c.itemMax)

/-- `off` is one of the read-only registers R75 lists. -/
def offsetReadOnly (off : Nat) : Bool :=
  [offId, offCapWidth, offCapItem, offErr, offWidth, offHashCount, offItemCountLo, offItemCountHi, offProbes].elem off

/-! ### Flags -/

/-- A flag as a bit of a register. -/
def bit (b : Bool) : BitVec 1 := BitVec.ofBool b

/-- `STATUS` (R26): `{0[31:6], viol, hit, ready, error, done, busy}`. -/
def statusWord (s : State) : Word :=
  (0 : BitVec 26) ++ bit s.viol ++ bit s.hit ++ bit s.ready ++ bit s.error ++ bit s.done ++ bit s.busy

/-- The output `irq = ie AND done`, a level without memory (R53, R207). -/
def irq (s : State) : Bool := s.ie && s.done

/-! ### Reads -/

/-- The value of the register at one of the offsets 0x000 to 0x034 (R22 to R35); `none` where there is no such
register. -/
def controlRegister (c : Params) (s : State) (off : Nat) : Option Word :=
  if off = offId then some idValue
  else if off = offCapWidth then some (BitVec.ofNat 32 c.maxWidth)
  else if off = offCapItem then some (BitVec.ofNat 32 c.itemMax)
  else if off = offCtrl then some ((bit s.ie).setWidth 32)
  else if off = offStatus then some (statusWord s)
  else if off = offErr then some (s.errCode.setWidth 32)
  else if off = offCfgWidth then some s.cfgWidth
  else if off = offCfgHashCount then some s.cfgHashCount
  else if off = offWidth then some s.width
  else if off = offHashCount then some (s.hashCount.setWidth 32)
  else if off = offItemCountLo then some (s.itemCount.extractLsb' 0 32)
  else if off = offItemCountHi then some (s.itemCount.extractLsb' 32 32)
  else if off = offCmd then some 0
  else if off = offProbes then some (s.idx.setWidth 32)
  else none

/-- `RegRead(off)` (R74): the answer. A read never changes the block (R79). -/
def regReadAnswer (c : Params) (s : State) (off : Nat) : Response :=
  if offsetInvalid off then .read .error 0
  else
    match controlRegister c s off with
    | some v => .read .okay v
    | none =>
      if offsetIsItem c off then .read .okay (readItemWord s.item (off - itemBase))
      else .read .error 0

/-! ### Writes -/

/-- A write of `CTRL` (R25): soft reset if `v[1] = 1`, and `v[0]` is ignored then; else `ie <- v[0]`. -/
def writeCtrl (v : Word) (s : State) : State :=
  if v.getLsbD 1 then resetBlock s else { s with ie := v.getLsbD 0 }

/-- A write of `STATUS` (R26): `done <- 0` if `v[1] = 1`. -/
def writeStatus (v : Word) (s : State) : State :=
  if v.getLsbD 1 then { s with done := false } else s

/-- A write of `CFG_WIDTH` (R28), the busy gate (R78) first. -/
def writeCfgWidth (v : Word) (s : State) : State :=
  if s.busy then violate s else { s with cfgWidth := v }

/-- A write of `CFG_HASH_COUNT` (R29), the busy gate (R78) first. -/
def writeCfgHashCount (v : Word) (s : State) : State :=
  if s.busy then violate s else { s with cfgHashCount := v }

/-- A write of `ITEM` at item byte `j` (R37), the busy gate (R78) first. -/
def writeItem (j : Nat) (v : Word) (s : State) : State :=
  if s.busy then violate s else { s with item := writeItemWord s.item j v }

end Sys2Proof.Machine
end

