-- ==== Sys2Proof/Machine/Insert.lean ====
section
/-! DEFINITION. INSERT (spec 41): the command word (R106, R140) and the probe step (R141). -/

namespace Sys2Proof.Machine

/-- INSERT delivered to `CMD` (R140): accepted or rejected in this step. -/
def execInsert (len : Nat) (s : State) : Result := .next (commandWord .chip (some (.insert len)) s)

/-- What follows `BitSet(p)` in the probe step (R141): count the probe; after the last one count the insertion, in the
same step, and complete. -/
def insertAdvance (s : State) : State :=
  if s.idx + 1 = s.hashCount then complete { s with idx := s.idx + 1, itemCount := s.itemCount + 1 }
  else { s with idx := s.idx + 1 }

/-- The INSERT probe step (R141). -/
def insertStep (c : Params) (s : State) : Result :=
  match bitSet s (probePosition c s) with
  | none => .fault .bitWithoutValue
  | some t => .next (insertAdvance t)

end Sys2Proof.Machine
end

