-- ==== Sys2Proof/Machine/Lifecycle.lean ====
section
/-! DEFINITION. INIT and RELEASE (spec 40): the command word (R106) and the one engine step of each. -/

namespace Sys2Proof.Machine

/-- INIT delivered to `CMD` (R120, R121): accepted or rejected in this step. -/
def execInit (s : State) : Result := .next (commandWord .chip (some .init) s)

/-- The INIT engine step (R123): latch the configuration, clear `bit_array[0 .. cfg_width-1]` (R73), `item_count <- 0`,
`ready <- 1`, `complete()`. -/
def initStep (s : State) : State :=
  complete { s with
    width := s.cfgWidth
    hashCount := s.cfgHashCount.setWidth 8
    bitArray := some []
    itemCount := 0
    ready := true }

/-- RELEASE delivered to `CMD` (R125): accepted or rejected in this step. -/
def execRelease (s : State) : Result := .next (commandWord .chip (some .release) s)

/-- The RELEASE engine step (R126); "`bit_array` contents become unspecified". -/
def releaseStep (s : State) : State :=
  complete { s with width := 0, hashCount := 0, itemCount := 0, ready := false, bitArray := none }

end Sys2Proof.Machine
end

