-- ==== Sys2Proof/Machine/Query.lean ====
section
/-! DEFINITION. QUERY (spec 42): the command word (R106, R150) and the probe step (R151). -/

namespace Sys2Proof.Machine

/-- QUERY delivered to `CMD` (R150): accepted or rejected in this step. -/
def execQuery (len : Nat) (s : State) : Result := .next (commandWord .chip (some (.query len)) s)

/-- What follows `b = BitRead(p)` in the probe step (R151): count the probe; the first 0 answers false, all
`hash_count` ones answer true, else the next probe follows at the next step. -/
def queryAdvance (b : Bool) (s : State) : State :=
  if b = false then complete { s with idx := s.idx + 1, hit := false }
  else if s.idx + 1 = s.hashCount then complete { s with idx := s.idx + 1, hit := true }
  else { s with idx := s.idx + 1 }

/-- The QUERY probe step (R151). -/
def queryStep (c : Params) (s : State) : Result :=
  match bitRead s (probePosition c s) with
  | none => .fault .bitWithoutValue
  | some b => .next (queryAdvance b s)

end Sys2Proof.Machine
end

