-- ==== Sys2Proof/Machine/Engine.lean ====
section
/-! DEFINITION. The engine (spec R8, R50): one step of the command in progress, and several in a row. -/

namespace Sys2Proof.Machine

/-- An engine step (R50): what the rule of the command in progress says. With `cur_op = NONE` no engine step is enabled
and nothing moves. Assumption 5. -/
def engineStep (c : Params) (s : State) : Result :=
  match s.curOp with
  | .none => .next s
  | .init => .next (initStep s)
  | .release => .next (releaseStep s)
  | .insert => insertStep c s
  | .query => queryStep c s

/-- `n` engine steps in a row (`STEP n` of R109), up to a stop. -/
def engineRun (c : Params) : Nat → State → Result
  | 0, s => .next s
  | n + 1, s =>
    match engineStep c s with
    | .next t => engineRun c n t
    | .fault f => .fault f
    | .refused r => .refused r

end Sys2Proof.Machine
end

