-- ==== Sys2Proof/Machine/Bus.lean ====
section
/-! DEFINITION. The host's side of a step: the two transactions as total functions (spec R74, R75), what one scheduled
step does (R9), and the command words as table words. `ex` is what a decoded command word does: `exec` in the machine. -/

namespace Sys2Proof.Machine

/-- A command word that `decode` maps to `ILLEGAL`, written to `CMD` (R104, R106, R195). -/
def illegalWord (c : Params) (s : State) : State := commandWord c none s

/-- `RegWrite(0x030, w)` (R34, R75): dropped while busy, before any decoding (R78, R202); else decoded (R105) and
processed (R106). -/
def writeCmd (c : Params) (ex : Instr → State → Result) (w : Word) (s : State) : Result :=
  if s.busy then .next (violate s)
  else
    match decode w with
    | .ok i => ex i s
    | .error _ => .next (illegalWord c s)

/-- `RegWrite(off, v)` (R75), in R75's order: the answer and the effect. -/
def regWrite (c : Params) (ex : Instr → State → Result) (off : Nat) (v : Word) (s : State) : Result :=
  if offsetInvalid off then .next (respond (.write .error) s)
  else if offsetReadOnly off then .next (respond (.write .okay) s)
  else if off = offCtrl then .next (writeCtrl v (respond (.write .okay) s))
  else if off = offStatus then .next (writeStatus v (respond (.write .okay) s))
  else if off = offCfgWidth then .next (writeCfgWidth v (respond (.write .okay) s))
  else if off = offCfgHashCount then .next (writeCfgHashCount v (respond (.write .okay) s))
  else if off = offCmd then writeCmd c ex v (respond (.write .okay) s)
  else if offsetIsItem c off then .next (writeItem (off - itemBase) v (respond (.write .okay) s))
  else .next (respond (.write .error) s)

/-- `RegRead(off)` (R74): the answer, and nothing else (R79). -/
def regRead (c : Params) (off : Nat) (s : State) : State := respond (regReadAnswer c s off) s

/-- One step of an execution (R9). -/
def runEvent (c : Params) (ex : Instr → State → Result) : Event → State → Result
  | .regRead off, s => .next (regRead c off s)
  | .regWrite off v, s => regWrite c ex off v s
  | .engine, s => engineStep c s
  | .reset, s => .next (resetBlock s)

/-- The next step of the schedule; where it is empty the engine moves. Executions without end, and the weak
fairness of R9 over them, stand in Execution.lean. Assumption 3. -/
def nextStep (c : Params) (ex : Instr → State → Result) (s : State) : Result :=
  match s.schedule with
  | [] => engineStep c s
  | e :: rest => runEvent c ex e { s with schedule := rest }

/-- The step that delivers a command word: `RegWrite(0x030, w)` (R100). -/
def commandEvent (nbits w : Nat) : Event := .regWrite offCmd (BitVec.ofNat 32 (w % 2 ^ nbits))

end Sys2Proof.Machine
end

