-- ==== Sys2Proof/Machine/Dispatch.lean ====
section
/-! DEFINITION. The meaning of each command word, one arm per constructor. -/

namespace Sys2Proof.Machine

def exec (i : Instr) (s : State) : Host.Outcome State Fault Refusal :=
  match i with
  | .init => Sys2Proof.Machine.execInit s
  | .insert len => Sys2Proof.Machine.execInsert len s
  | .query len => Sys2Proof.Machine.execQuery len s
  | .release => Sys2Proof.Machine.execRelease s

end Sys2Proof.Machine
end

