-- ==== Sys2Proof/Machine/Step.lean ====
section
/-! DEFINITION. One step of the machine, and how a command word comes to be the next step. -/

namespace Sys2Proof.Machine

/-- One step: the next one of the schedule (R9), on the block being modelled. -/
def step (s : State) : Host.Outcome State Fault Refusal := nextStep .chip exec s

/-- The state with the command word `w` as the very next thing the host writes to `CMD` (R100). Assumption 6. -/
def State.withFetchWord (s : State) (nbits w : Nat) : State :=
  { s with schedule := commandEvent nbits w :: s.schedule }

end Sys2Proof.Machine
end

