-- ==== Sys2Proof/Machine/Execution.lean ====
section
/-! DEFINITION. Executions without end (spec R9): the sequences of atomic steps the host and the engine may take for ever,
and the weak fairness of the engine. The streams stand outside State, which is plain data. Each step of an execution is one
`step` of the machine, with the schedule holding just what R9's sequence has there. -/

namespace Sys2Proof.Machine

/-- The machine with `l` as the steps still to come. -/
def withSchedule (l : List Event) (s : State) : State := { s with schedule := l }

/-- The machine with `e` as the one step to take. -/
def offer (e : Event) (s : State) : State := withSchedule [e] s

/-- An engine step is enabled exactly when a command is in progress (R50); a transaction (R10) and a reset (R220) always
are. -/
def eventEnabled (e : Event) (s : State) : Prop := e = .engine → s.busy = true

/-- One place of an execution: an enabled step, taken by the machine, or `none` where nothing happens. A finite execution is
`none` from some place on. -/
def moves (e : Option Event) (s t : State) : Prop :=
  match e with
  | none => t = s
  | some e => eventEnabled e s ∧ step (offer e s) = .next t

/-- `events` and `states` are an execution (R9): one total order of atomic steps, host transactions without end among
them. -/
def Execution (events : Nat → Option Event) (states : Nat → State) : Prop :=
  ∀ n, moves (events n) (states n) (states (n + 1))

/-- The liveness assumption of R9: "while a command is in progress an engine step is always enabled and is eventually
taken". -/
def WeaklyFair (events : Nat → Option Event) (states : Nat → State) : Prop :=
  ∀ n, (states n).busy = true → ∃ m, n ≤ m ∧ (events m = some .engine ∨ (states m).busy = false)

/-- The steps of the first `n` places of an execution, as a schedule. -/
def scheduleOf (events : Nat → Option Event) : Nat → List Event
  | 0 => []
  | n + 1 => scheduleOf events n ++ (events n).toList

/-- `n` steps of the machine, up to a stop. -/
def stepRun : Nat → State → Result
  | 0, s => .next s
  | n + 1, s =>
    match step s with
    | .next t => stepRun n t
    | .fault f => .fault f
    | .refused r => .refused r

end Sys2Proof.Machine
end

