-- ==== Sys2Proof/Machine/HashRef.lean ====
section
/-! DEFINITION. The reference instance of the hash parameter (spec R164, R165, from general knowledge as the spec says)
and the reference configuration (R7). They serve concrete numbers only: the machine uses `Params.chip`. -/

namespace Sys2Proof.Machine

def hashC1 : Word := 0xCC9E2D51
def hashC2 : Word := 0x1B873593

/-- `k * c1`, `rotl32(k, 15)`, `* c2`, all mod 2^32 (R164, R165). -/
def hashScramble (k : Word) : Word := ((k * hashC1).rotateLeft 15) * hashC2

/-- One whole 4-byte block (R164). -/
def hashBlock (h k : Word) : Word := ((h ^^^ hashScramble k).rotateLeft 13) * 5 + 0xE6546B64

/-- The tail of 0 to 3 bytes (R164). -/
def hashTail (h : Word) : List Byte → Word
  | [a] => h ^^^ hashScramble (a.setWidth 32)
  | [a, b] => h ^^^ hashScramble ((b.setWidth 32 <<< 8) ^^^ a.setWidth 32)
  | [a, b, d] => h ^^^ hashScramble ((d.setWidth 32 <<< 16) ^^^ (b.setWidth 32 <<< 8) ^^^ a.setWidth 32)
  | _ => h

/-- The blocks in order, little-endian, then the tail (R164). -/
def hashBody (h : Word) : List Byte → Word
  | a :: b :: d :: e :: rest => hashBody (hashBlock h (e ++ d ++ b ++ a)) rest
  | tail => hashTail h tail

/-- The finaliser (R164). -/
def hashFinish (h : Word) : Word :=
  let h1 := (h ^^^ (h >>> 16)) * 0x85EBCA6B
  let h2 := (h1 ^^^ (h1 >>> 13)) * 0xC2B2AE35
  h2 ^^^ (h2 >>> 16)

/-- `HASH_REF(x, seed)` (R164). -/
def hashRef (x : List Byte) (seed : Word) : Word :=
  hashFinish (hashBody seed x ^^^ BitVec.ofNat 32 x.length)

/-- The reference configuration (R7): `MAX_WIDTH = 65536`, `ITEM_MAX = 256`, `HASH = HASH_REF`. -/
def referenceParams : Params where
  maxWidth := 65536
  itemMax := 256
  hash := hashRef
  maxWidth_pos := by decide
  maxWidth_le := by decide
  itemMax_words := by decide
  itemMax_ge := by decide
  itemMax_le := by decide

end Sys2Proof.Machine
end

