-- ==== Sys2Proof/Machine/HostSizing.lean ====
section
/-! DEFINITION. What host software computes before INIT (spec 44). It is outside the block (R4(a)); it stands here because
the legal operands of INIT come from it. The real arithmetic is a parameter (R184). Assumption 8. -/

namespace Sys2Proof.Machine

/-- "`trunc(raw)` if `trunc(raw) >= 1` else 1" (R181, R182). -/
def clampToOne (raw : Int) : Nat := if 1 ≤ raw then raw.toNat else 1

/-- `width` (R181). -/
def derivedWidth (a : HostArith) (rate : ℝ) (maxItems : Nat) : Nat := clampToOne (a.truncRawWidth rate maxItems)

/-- `hash_count` (R182) from a width. -/
def derivedCount (a : HostArith) (width maxItems : Nat) : Nat := clampToOne (a.truncRawCount width maxItems)

/-- "0 < rate < 1" (R180). -/
def rateInRange (f : ℝ) : Prop := 0 < f ∧ f < 1

/-- The checks 2 to 4 of R183 on a derived pair, in R183's order. -/
def checkPair (c : Params) (width count : Nat) : Except ErrorName (Nat × Nat) :=
  if 255 < count then .error .tooManyHashFunctions
  else if 4294967295 < width then .error .bitWidthOverflow
  else if c.maxWidth < width then .error .outOfMemory
  else .ok (width, count)

/-- The host's `create` up to the register writes (R180): check 1 of R183, which refuses a NaN too (U11 of 93), then the
derivation, then the other checks. How the host compares a rate with 0 and 1 is the instance argument. -/
def hostDerive [DecidablePred rateInRange] (a : HostArith) (c : Params) :
    HostRate → Nat → Except ErrorName (Nat × Nat)
  | .nan, _ => .error .invalidParameter
  | .number f, maxItems =>
    if ¬ rateInRange f ∨ maxItems = 0 then .error .invalidParameter
    else checkPair c (derivedWidth a f maxItems) (derivedCount a (derivedWidth a f maxItems) maxItems)

/-- `z = trunc(x)`: toward zero (R181). -/
def truncates (x : ℝ) (z : Int) : Prop :=
  (0 ≤ x → (z : ℝ) ≤ x ∧ x < z + 1) ∧ (x < 0 → x ≤ z ∧ (z : ℝ) - 1 < x)

/-- Arithmetic without error: `raw_w = - n * ln(f) / (ln 2)^2` (R181) and `raw_k = m * ln 2 / n` (R182), truncated. The
properties of R185 that name numbers hold of it. -/
def exactArith (a : HostArith) : Prop :=
  (∀ (f : ℝ) (n : Nat), rateInRange f → 0 < n →
    truncates (-(n : ℝ) * Real.log f / Real.log 2 ^ 2) (a.truncRawWidth f n)) ∧
  (∀ m n : Nat, 0 < n → truncates ((m : ℝ) * Real.log 2 / (n : ℝ)) (a.truncRawCount m n))

/-- The staging registers after the host has written the derived pair (R180). -/
def stage (pair : Nat × Nat) (s : State) : State :=
  writeCfgHashCount (BitVec.ofNat 32 pair.2) (writeCfgWidth (BitVec.ofNat 32 pair.1) s)

end Sys2Proof.Machine
end

