-- ==== Sys2Proof/Machine/Script.lean ====
section
/-! DEFINITION. The host-script notation (spec R109, R110): lines and pseudo-operations as lists of steps, which stand in
`State.schedule`. Assumption 7. -/

namespace Sys2Proof.Machine

/-- One line of a host script (R109). -/
inductive Line where
  /-- `WR <reg>, <value>`. -/
  | wr (off : Nat) (v : Word)
  /-- `RD <reg>`. -/
  | rd (off : Nat)
  /-- `STEP <n>`. -/
  | steps (n : Nat)
  /-- `STEP *`: engine steps until `busy = 0`. -/
  | stepsToIdle
  /-- `RESET`. -/
  | reset
  deriving DecidableEq, Repr

/-- The steps a line stands for. A command in progress needs at most 255 engine steps (R51), and further ones change
nothing (R50). -/
def lineEvents : Line → List Event
  | .wr off v => [.regWrite off v]
  | .rd off => [.regRead off]
  | .steps n => List.replicate n .engine
  | .stepsToIdle => List.replicate 255 .engine
  | .reset => [.reset]

/-- The steps of a script. -/
def scriptEvents : List Line → List Event
  | [] => []
  | l :: ls => lineEvents l ++ scriptEvents ls

/-- `pack(bytes)` (R110): `ceil(n/4)` words, little-endian, the unused high bytes of the last one 0. -/
def pack : List Byte → List Word
  | [] => []
  | [a] => [a.setWidth 32]
  | [a, b] => [(b ++ a).setWidth 32]
  | [a, b, d] => [(d ++ b ++ a).setWidth 32]
  | a :: b :: d :: e :: rest => (e ++ d ++ b ++ a) :: pack rest

/-- `WR ITEM[k], word` for each word, from `ITEM[k]` on. -/
def loadFrom (k : Nat) : List Word → List Line
  | [] => []
  | w :: ws => .wr (itemBase + 4 * k) w :: loadFrom (k + 1) ws

/-- `LOAD "<item>"` (R110). -/
def loadLines (item : List Byte) : List Line := loadFrom 0 (pack item)

/-- `POLL` (R110): the engine runs to completion, and the last `RD STATUS` reads `BUSY = 0`. -/
def pollLines : List Line := [.stepsToIdle, .rd offStatus]

/-- `INIT <w>, <k>` (R110). -/
def initLines (w k : Word) : List Line :=
  [.wr offCfgWidth w, .wr offCfgHashCount k, .wr offCmd (encode .init)] ++ pollLines

/-- The host's construction of a filter (R180): only a pair that passes every check is staged and given to INIT. -/
def createLines [DecidablePred rateInRange] (a : HostArith) (c : Params) (rate : HostRate) (maxItems : Nat) :
    Except ErrorName (List Line) :=
  match hostDerive a c rate maxItems with
  | .error e => .error e
  | .ok (width, count) => .ok (initLines (BitVec.ofNat 32 width) (BitVec.ofNat 32 count))

/-- `INSERT "<item>"` (R110). -/
def insertLines (item : List Byte) : List Line :=
  loadLines item ++ [.wr offCmd (encode (.insert item.length))] ++ pollLines

/-- `QUERY "<item>"` (R110). -/
def queryLines (item : List Byte) : List Line :=
  loadLines item ++ [.wr offCmd (encode (.query item.length))] ++ pollLines

/-- `RELEASE` (R110). -/
def releaseLines : List Line := .wr offCmd (encode .release) :: pollLines

/-- `SRST` (R110). -/
def softResetLines : List Line := [.wr offCtrl 2]

/-- The item buffer after `LOAD`'s writes, from item byte `j` on. -/
def storeWords (m : Memory) (j : Nat) : List Word → Memory
  | [] => m
  | w :: ws => storeWords (writeItemWord m j w) (j + 4) ws

end Sys2Proof.Machine
end

