-- ==== Sys2Proof/Safety.lean ====
section
/-! DEFINITION. What a sound state of the block is (spec R21 and the rules it rests on), what one configured period is
(R127), and the readings of a state that the statements use. -/

namespace Sys2Proof.Machine

/-- The command in progress makes probes. -/
def State.probing (s : State) : Prop := s.curOp = .insert ∨ s.curOp = .query

/-- Bit `p` of the array is in use and holds 1. -/
def bitIsSet (s : State) (p : Nat) : Prop := bitRead s p = some true

/-- Every byte index listed in the item buffer is below `n`. -/
def indexesBelow (n : Nat) (m : Memory) : Prop := ∀ cell ∈ m, cell.1 < n

/-- `err_code` is 0 or one of the codes the block produces: 1, 2 or 4 to 9 (R190, R193). -/
def codeProduced (code : BitVec 8) : Prop := code.toNat ≤ 9 ∧ code.toNat ≠ 3

/-- The invariants of R21, with those parts of R31, R35, R42, R45, R52, R55, R121, R140, R141, R151 and R190 that make them
inductive. -/
structure Inv (c : Params) (s : State) : Prop where
  /-- R21(a). -/
  readyWidth : s.ready = true → 1 ≤ s.width.toNat ∧ s.width.toNat ≤ c.maxWidth
  /-- R21(a). -/
  readyCount : s.ready = true → 1 ≤ s.hashCount.toNat
  /-- R21(b). -/
  unready : s.ready = false → s.width = 0 ∧ s.hashCount = 0 ∧ s.itemCount = 0
  /-- R55: the array exists while `ready = 1`, on `0 .. width-1`. -/
  arrayInUse : s.ready = true → ∃ b, s.bitArray = some b ∧ BitSet.wf b = true ∧ ∀ p ∈ b, p < s.width.toNat
  /-- R55. -/
  noArray : s.ready = false → s.bitArray = none
  /-- R21(f), R35. -/
  probesMade : s.idx.toNat ≤ s.hashCount.toNat
  /-- R21(f). -/
  probeLeft : s.probing → s.idx.toNat < s.hashCount.toNat
  /-- R21(g). -/
  needsFilter : s.probing ∨ s.curOp = .release → s.ready = true
  /-- R21(g). -/
  initUnready : s.curOp = .init → s.ready = false
  /-- R121, R78: what INIT was accepted with is still staged. -/
  initStaged : s.curOp = .init →
    s.cfgWidth ≠ 0 ∧ s.cfgWidth.toNat ≤ c.maxWidth ∧ s.cfgHashCount ≠ 0 ∧ s.cfgHashCount.toNat ≤ 255
  /-- R123, R126: "`idx` is already 0". -/
  lifecycleIdx : s.curOp = .init ∨ s.curOp = .release → s.idx = 0
  /-- R21(h). -/
  lenFits : s.curLen.toNat ≤ c.itemMax
  /-- R21(h). -/
  lenZero : ¬ s.probing → s.curLen = 0
  /-- R21(i). -/
  errorCoded : s.error = true ↔ s.errCode ≠ 0
  /-- R190. -/
  codeKnown : codeProduced s.errCode
  /-- R42, R52, R106: nothing is reported while a command is in progress. -/
  busyQuiet : s.busy = true → s.done = false ∧ s.error = false ∧ s.hit = false
  /-- R42, R35. -/
  hitMeans : s.hit = true → s.ready = true ∧ s.idx = s.hashCount
  /-- R199, R141: "no wrap". -/
  countRoom : s.curOp = .insert → s.itemCount ≠ itemCountMax
  /-- The item buffer in its canonical form, inside R20's bounds. -/
  itemWf : Memory.wf s.item = true
  itemBounds : indexesBelow c.itemMax s.item
  /-- R141, R151: the probes already made found or left a 1. -/
  probesSet : s.probing → ∀ i : Nat, i < s.idx.toNat →
    bitIsSet s (position c (itemBytes s s.curLen.toNat) (BitVec.ofNat 8 i) s.width)

/-- `SamePeriod s t`: the machine goes from `s` to `t` and a filter exists in every state on the way, so that all of it
lies in one configured period (R127). -/
inductive SamePeriod : State → State → Prop where
  | refl (s : State) : s.ready = true → SamePeriod s s
  | step {s t u : State} : SamePeriod s t → step t = .next u → u.ready = true → SamePeriod s u

/-- The net effect of a rejected word (R203): `hit = 0`, `done = 1`, `error = 1`, `err_code = code`, nothing else. -/
def rejectedWith (code : BitVec 8) (s : State) : State :=
  { s with hit := false, done := true, error := true, errCode := code }

/-- The net effect of an accepted word (R106): the previous outcome cleared, the command latched, nothing else. -/
def acceptedAs (op : Op) (len : BitVec 16) (s : State) : State :=
  { s with hit := false, done := false, error := false, errCode := 0, curOp := op, curLen := len, idx := 0 }

/-- The step reads the register at `off` as `value` and changes nothing but the schedule and the answer (R79). -/
def readsAs (off : Nat) (value : State → Word) : Prop :=
  ∀ (s : State) (rest : List Event), s.schedule = .regRead off :: rest →
    step s = .next { s with schedule := rest, response := some (.read .okay (value s)) }

/-- A write to `off` is answered `OKAY` and ignored (R77). -/
def writeIgnored (off : Nat) : Prop :=
  ∀ (s : State) (v : Word) (rest : List Event), s.schedule = .regWrite off v :: rest →
    step s = .next { s with schedule := rest, response := some (.write .okay) }

/-- `off` names a busy-gated register: `CFG_WIDTH`, `CFG_HASH_COUNT`, `CMD` or an `ITEM[j]` (R78). -/
def offsetGated (c : Params) (off : Nat) : Prop :=
  off = 0x018 ∨ off = 0x01C ∨ off = 0x030 ∨ (∃ j, off = 0x100 + 4 * j ∧ 4 * j < c.itemMax)

/-- `off` names no register: misaligned, above 0xFFC, reserved, or beyond the item buffer (R36, R76). -/
def offsetUnmapped (c : Params) (off : Nat) : Prop :=
  off % 4 ≠ 0 ∨ 0xFFC < off ∨ (0x038 ≤ off ∧ off ≤ 0x0FC) ∨ 0x100 + c.itemMax ≤ off

/-- The next step of the schedule is a hardware or a soft reset (R220, R221). -/
def resetIsNext (s : State) : Prop :=
  (∃ rest, s.schedule = .reset :: rest) ∨
    ∃ (v : Word) (rest : List Event), s.schedule = .regWrite 0x00C v :: rest ∧ v.getLsbD 1 = true

/-- Every probe of item `x` with the configuration of `s` falls on a set bit. -/
def allProbesSet (c : Params) (s : State) (x : List Byte) : Prop :=
  ∀ i : Nat, i < s.hashCount.toNat → bitIsSet s (position c x (BitVec.ofNat 8 i) s.width)

/-- `s` and `t` differ at most in item bytes from `n` on. -/
def sameUpToItemTail (n : Nat) (s t : State) : Prop :=
  t = { s with item := t.item } ∧ ∀ k, k < n → memRead t.item k = memRead s.item k

end Sys2Proof.Machine
end

