-- ==== Sys2Proof/Certificates/Slice0/Obligations.lean ====
section
/-! DEFINITION. The statements for the provers. `Params.chip` is the block being modelled, with every legal choice of
`MAX_WIDTH`, `ITEM_MAX` and `HASH` (R5): a statement about it holds whatever they are. -/

open Sys2Proof Sys2Proof.Machine

/-! ### Encoding -/

/-- Words of R101 and R102 written out, and the instruction each stands for (95, section 2.4). -/
def Obligations.SampleWordsDecode : Prop :=
  decode 0b00000000000000000000000000000001#32 = .ok .init ∧
  decode 0b00000000000000000000000000000100#32 = .ok .release ∧
  decode 0b00000000000001010000000000000010#32 = .ok (.insert 5) ∧
  decode 0b11111111111111110000000000000010#32 = .ok (.insert 65535) ∧
  decode 0b00000000000011110000000000000011#32 = .ok (.query 15) ∧
  decode 0b00000000000000000000000000000000#32 = .error .unusedOpcode ∧
  decode 0b00000000000000000000000100000001#32 = .error .reservedBitsC0 ∧
  decode 0b00000000000001011000000000000011#32 = .error .reservedBitsCL

/-- R105, word by word: which words are INIT, RELEASE, INSERT(len), QUERY(len), and that all others are ILLEGAL. -/
def Obligations.DecodeIsTheRule : Prop :=
  ∀ w : Word,
    (decode w = .ok .init ↔ w = 0x00000001) ∧
    (decode w = .ok .release ↔ w = 0x00000004) ∧
    (∀ len, decode w = .ok (.insert len) ↔ w.toNat % 65536 = 2 ∧ len = w.toNat / 65536) ∧
    (∀ len, decode w = .ok (.query len) ↔ w.toNat % 65536 = 3 ∧ len = w.toNat / 65536) ∧
    ((∃ reason, decode w = .error reason) ↔
      w ≠ 0x00000001 ∧ w ≠ 0x00000004 ∧ w.toNat % 65536 ≠ 2 ∧ w.toNat % 65536 ≠ 3)

/-- R103: a word selects a row exactly when it decodes to that row's command, the rows are disjoint, and a word that
selects no row is illegal. -/
def Obligations.DecodeFollowsOpcodeRows : Prop :=
  (∀ (w : Word), ∀ r ∈ opcodeRows,
    r.selectedBy w = true ↔ ∃ i, decode w = .ok i ∧ mnemonicOf i = r.mnemonic) ∧
  (∀ (w : Word), ∀ r ∈ opcodeRows, ∀ q ∈ opcodeRows,
    r.selectedBy w = true → q.selectedBy w = true → r = q) ∧
  (∀ (w : Word), (∀ r ∈ opcodeRows, r.selectedBy w = false) ↔ ∃ reason, decode w = .error reason)

/-- The decoder reads every well-formed instruction back from its word, with every `len` the field admits. -/
def Obligations.DecodeOfEncode : Prop :=
  ∀ i : Instr, i.wellFormed = true → decode (encode i) = .ok i

/-- Each legal word has one meaning, and that meaning's encoding is the word: no bit of a legal word is ignored. -/
def Obligations.EncodeOfDecode : Prop :=
  ∀ (w : Word) (i : Instr), decode w = .ok i → i.wellFormed = true ∧ encode i = w

/-! ### Steps -/

/-- A step whose next scheduled step delivers a legal word to an idle block is `exec` of the decoded instruction, on the
state with that step taken off the schedule and the answer `OKAY` given. -/
def Obligations.CommandStepRunsDecodedInstruction : Prop :=
  ∀ (s : State) (w : Word) (i : Instr) (rest : List Event),
    s.schedule = .regWrite 0x030 w :: rest → s.busy = false → decode w = .ok i →
    step s = exec i { s with schedule := rest, response := some (.write .okay) }

/-- The model's convention for loading one command word (assumption 6): the very next step runs it. -/
def Obligations.FetchWordIsTheNextCommand : Prop :=
  ∀ (s : State) (w : Word) (i : Instr),
    s.busy = false → decode w = .ok i →
    step (s.withFetchWord 32 w.toNat) = exec i { s with response := some (.write .okay) }

/-- What the other kinds of steps do (R9, R50), with the model's choices for an exhausted schedule (assumption 3) and for
an engine step that is not enabled (assumption 5). -/
def Obligations.EngineEventsAndIdleSteps : Prop :=
  (∀ (s : State) (rest : List Event), s.schedule = .engine :: rest →
    step s = engineStep .chip { s with schedule := rest }) ∧
  (∀ s : State, s.schedule = [] → step s = engineStep .chip s) ∧
  (∀ s : State, s.busy = false → engineStep .chip s = .next s)

/-! ### Command words: acceptance and rejection -/

/-- R104, R195: an illegal word written while idle is rejected with code 5 and has no other effect. -/
def Obligations.IllegalWordRejected : Prop :=
  ∀ (s : State) (w : Word) (reason : IllegalWord) (rest : List Event),
    s.schedule = .regWrite 0x030 w :: rest → s.busy = false → decode w = .error reason →
    step s = .next (rejectedWith 5 { s with schedule := rest, response := some (.write .okay) })

/-- R121: INIT's checks in their order with the code of each, and the acceptance when all hold, for every choice of the
parameters. `exec .init` is that word on the block being modelled. -/
def Obligations.InitChecksInOrder : Prop :=
  (∀ s : State, exec .init s = .next (commandWord .chip (some .init) s)) ∧
  ∀ (c : Params) (s : State), s.busy = false →
    (s.ready = true → commandWord c (some .init) s = rejectedWith 7 s) ∧
    (s.ready = false → s.cfgWidth = 0 ∨ s.cfgHashCount = 0 → commandWord c (some .init) s = rejectedWith 1 s) ∧
    (s.ready = false → s.cfgWidth ≠ 0 → s.cfgHashCount ≠ 0 → 255 < s.cfgHashCount.toNat →
      commandWord c (some .init) s = rejectedWith 2 s) ∧
    (s.ready = false → s.cfgWidth ≠ 0 → s.cfgHashCount ≠ 0 → s.cfgHashCount.toNat ≤ 255 →
      c.maxWidth < s.cfgWidth.toNat → commandWord c (some .init) s = rejectedWith 4 s) ∧
    (s.ready = false → s.cfgWidth ≠ 0 → s.cfgHashCount ≠ 0 → s.cfgHashCount.toNat ≤ 255 →
      s.cfgWidth.toNat ≤ c.maxWidth → commandWord c (some .init) s = acceptedAs .init 0 s)

/-- R196: INSERT, QUERY and RELEASE without a filter are rejected with code 6. -/
def Obligations.NoFilterRejected : Prop :=
  ∀ s : State, s.busy = false → s.ready = false →
    (∀ len, exec (.insert len) s = .next (rejectedWith 6 s)) ∧
    (∀ len, exec (.query len) s = .next (rejectedWith 6 s)) ∧
    exec .release s = .next (rejectedWith 6 s)

/-- R198: INSERT and QUERY with `len > ITEM_MAX` on a live filter are rejected with code 8. -/
def Obligations.LongItemRejected : Prop :=
  ∀ (s : State) (len : Nat), s.busy = false → s.ready = true → Params.chip.itemMax < len →
    exec (.insert len) s = .next (rejectedWith 8 s) ∧ exec (.query len) s = .next (rejectedWith 8 s)

/-- R199: INSERT at `item_count = 2^64 - 1` is rejected with code 9, and QUERY is not. -/
def Obligations.FullCounterRejectsInsert : Prop :=
  ∀ (s : State) (len : Nat), s.busy = false → s.ready = true → len ≤ Params.chip.itemMax →
    s.itemCount.toNat = 2 ^ 64 - 1 →
    exec (.insert len) s = .next (rejectedWith 9 s) ∧
    exec (.query len) s = .next (acceptedAs .query (BitVec.ofNat 16 len) s)

/-- R106, R46(a): INSERT, QUERY and RELEASE that pass their checks are latched, `len` whole, and nothing else changes. -/
def Obligations.FilterCommandsAccepted : Prop :=
  ∀ s : State, s.busy = false → s.ready = true →
    (∀ len, len ≤ Params.chip.itemMax → s.itemCount.toNat ≠ 2 ^ 64 - 1 →
      exec (.insert len) s = .next (acceptedAs .insert (BitVec.ofNat 16 len) s)) ∧
    (∀ len, len ≤ Params.chip.itemMax →
      exec (.query len) s = .next (acceptedAs .query (BitVec.ofNat 16 len) s)) ∧
    exec .release s = .next (acceptedAs .release 0 s)

/-- R203, R204: every command word on an idle block is either rejected with a code of R190 the block produces, or accepted
as its own command with its own length. Never both, never anything else. -/
def Obligations.WordIsRejectedOrAccepted : Prop :=
  ∀ (i : Instr) (s : State), s.busy = false → ∃ t, exec i s = .next t ∧
    ((∃ code, code ≠ 0 ∧ codeProduced code ∧ t = rejectedWith code s ∧ t.busy = false) ∨
     (t.busy = true ∧
      ((i = .init ∧ t = acceptedAs .init 0 s) ∨ (i = .release ∧ t = acceptedAs .release 0 s) ∨
       (∃ len, i = .insert len ∧ len ≤ Params.chip.itemMax ∧ t = acceptedAs .insert (BitVec.ofNat 16 len) s) ∨
       (∃ len, i = .query len ∧ len ≤ Params.chip.itemMax ∧ t = acceptedAs .query (BitVec.ofNat 16 len) s))))

/-- The frame of all four command words in any state: no configuration, no count, no bit, no item byte, no staging
register, no `ie`, no `ready` changes at the `CMD` write (R106, R203, R78). -/
def Obligations.CommandWordFrame : Prop :=
  ∀ (i : Instr) (s t : State), exec i s = .next t →
    t.ie = s.ie ∧ t.ready = s.ready ∧ t.cfgWidth = s.cfgWidth ∧ t.cfgHashCount = s.cfgHashCount ∧
    t.width = s.width ∧ t.hashCount = s.hashCount ∧ t.itemCount = s.itemCount ∧
    (∀ n, memRead t.item n = memRead s.item n) ∧ (∀ p, bitRead t p = bitRead s p) ∧
    t.schedule = s.schedule ∧ t.response = s.response ∧
    (t.viol ≠ s.viol → s.busy = true) ∧
    (t.idx ≠ s.idx → s.busy = false ∧ t.busy = true)

/-! ### What each command does -/

/-- R123, with R120's result: INIT is accepted, and its one engine step builds the empty filter. -/
def Obligations.InitBuildsEmptyFilter : Prop :=
  ∀ s : State, s.busy = false → s.ready = false → s.curLen = 0 →
    s.cfgWidth ≠ 0 → s.cfgWidth.toNat ≤ Params.chip.maxWidth →
    s.cfgHashCount ≠ 0 → s.cfgHashCount.toNat ≤ 255 →
    ∃ t u, exec .init s = .next t ∧ t.busy = true ∧ engineStep .chip t = .next u ∧
      u = { s with
        width := s.cfgWidth, hashCount := u.hashCount, itemCount := 0, idx := 0, bitArray := u.bitArray,
        ready := true, done := true, hit := false, error := false, errCode := 0 } ∧
      u.hashCount.toNat = s.cfgHashCount.toNat ∧
      (∀ p, p < s.cfgWidth.toNat → bitRead u p = some false) ∧
      (∀ p, s.cfgWidth.toNat ≤ p → bitRead u p = none)

/-- R126, with R125's result: RELEASE is accepted, and its one engine step drops the filter; the staging registers and
the item buffer keep their values. -/
def Obligations.ReleaseDropsFilter : Prop :=
  ∀ s : State, s.busy = false → s.ready = true → s.curLen = 0 →
    ∃ t u, exec .release s = .next t ∧ t.busy = true ∧ engineStep .chip t = .next u ∧
      u = { s with
        width := 0, hashCount := 0, itemCount := 0, idx := 0, bitArray := u.bitArray,
        ready := false, done := true, hit := false, error := false, errCode := 0 } ∧
      (∀ p, bitRead u p = none)

/-- R143, R51: an accepted INSERT completes after exactly `hash_count` engine steps, with the bit of every probe set, every
other bit as before, the count one higher and everything else as before. -/
def Obligations.InsertSetsItsBits : Prop :=
  ∀ (s : State) (len : Nat), Inv .chip s → s.busy = false → s.ready = true →
    len ≤ Params.chip.itemMax → s.itemCount.toNat ≠ 2 ^ 64 - 1 →
    ∃ t u, exec (.insert len) s = .next t ∧
      (∀ k, k < s.hashCount.toNat → ∃ m, engineRun .chip k t = .next m ∧ m.busy = true ∧ m.idx.toNat = k) ∧
      engineRun .chip s.hashCount.toNat t = .next u ∧
      u = { s with
        bitArray := u.bitArray, itemCount := u.itemCount, idx := s.hashCount,
        done := true, hit := false, error := false, errCode := 0 } ∧
      u.itemCount.toNat = s.itemCount.toNat + 1 ∧
      (∀ i : Nat, i < s.hashCount.toNat →
        bitRead u (position .chip (itemBytes s len) (BitVec.ofNat 8 i) s.width) = some true) ∧
      (∀ p, (∀ i : Nat, i < s.hashCount.toNat →
        position .chip (itemBytes s len) (BitVec.ofNat 8 i) s.width ≠ p) → bitRead u p = bitRead s p)

/-- R153, R51: an accepted QUERY ends after between 1 and `hash_count` engine steps at the first probe that reads 0, or
after the last; `hit` is the conjunction of the probed bits and nothing but `hit`, `idx` and the outcome changes. -/
def Obligations.QueryAnswersMembership : Prop :=
  ∀ (s : State) (len : Nat), Inv .chip s → s.busy = false → s.ready = true → len ≤ Params.chip.itemMax →
    ∃ t u k, exec (.query len) s = .next t ∧ 1 ≤ k ∧ k ≤ s.hashCount.toNat ∧
      (∀ j, j < k → ∃ m, engineRun .chip j t = .next m ∧ m.busy = true) ∧
      engineRun .chip k t = .next u ∧
      u = { s with idx := u.idx, hit := u.hit, done := true, error := false, errCode := 0 } ∧
      u.idx.toNat = k ∧
      (∀ i : Nat, i + 1 < k →
        bitRead s (position .chip (itemBytes s len) (BitVec.ofNat 8 i) s.width) = some true) ∧
      ((u.hit = true ∧ k = s.hashCount.toNat ∧ allProbesSet .chip s (itemBytes s len)) ∨
       (u.hit = false ∧
        bitRead s (position .chip (itemBytes s len) (BitVec.ofNat 8 (k - 1)) s.width) = some false))

/-- R141: one probe step of INSERT, the last one and the others, as a whole state. -/
def Obligations.InsertProbeStep : Prop :=
  ∀ s : State, Inv .chip s → s.curOp = .insert →
    ∃ b t, s.bitArray = some b ∧ engineStep .chip s = .next t ∧
      bitRead t (probePosition .chip s) = some true ∧
      (∀ p, p ≠ probePosition .chip s → bitRead t p = bitRead s p) ∧
      t.idx.toNat = s.idx.toNat + 1 ∧
      (s.idx.toNat + 1 ≠ s.hashCount.toNat →
        t = { s with bitArray := t.bitArray, idx := t.idx }) ∧
      (s.idx.toNat + 1 = s.hashCount.toNat →
        t = { s with
          bitArray := t.bitArray, idx := t.idx, itemCount := t.itemCount, curOp := .none, curLen := 0, done := true } ∧
        t.itemCount.toNat = s.itemCount.toNat + 1)

/-- R151: one probe step of QUERY: a 0 answers false now, the last 1 answers true, any other 1 goes on. -/
def Obligations.QueryProbeStep : Prop :=
  ∀ s : State, Inv .chip s → s.curOp = .query →
    ∃ b t, bitRead s (probePosition .chip s) = some b ∧ engineStep .chip s = .next t ∧
      t.idx.toNat = s.idx.toNat + 1 ∧
      (b = false → t = { s with idx := t.idx, hit := false, curOp := .none, curLen := 0, done := true }) ∧
      (b = true → s.idx.toNat + 1 = s.hashCount.toNat →
        t = { s with idx := t.idx, hit := true, curOp := .none, curLen := 0, done := true }) ∧
      (b = true → s.idx.toNat + 1 ≠ s.hashCount.toNat → t = { s with idx := t.idx })

/-- R152(a): on an empty filter a QUERY answers false after exactly one probe. -/
def Obligations.EmptyFilterMissesAtFirstProbe : Prop :=
  ∀ (s : State) (len : Nat), s.busy = false → s.ready = true → s.curLen = 0 → 1 ≤ s.width.toNat →
    (∀ p, p < s.width.toNat → bitRead s p = some false) → len ≤ Params.chip.itemMax →
    ∃ t, exec (.query len) s = .next t ∧
      engineStep .chip t = .next { s with idx := 1, hit := false, done := true, error := false, errCode := 0 }

/-- R142(a): inserting an item whose bits are all set leaves the bit array as it is and still counts. -/
def Obligations.DuplicateInsertOnlyCounts : Prop :=
  ∀ (s : State) (len : Nat), Inv .chip s → s.busy = false → s.ready = true →
    len ≤ Params.chip.itemMax → s.itemCount.toNat ≠ 2 ^ 64 - 1 → allProbesSet .chip s (itemBytes s len) →
    ∃ t u, exec (.insert len) s = .next t ∧ engineRun .chip s.hashCount.toNat t = .next u ∧
      u.bitArray = s.bitArray ∧ u.itemCount.toNat = s.itemCount.toNat + 1

/-- R161: where there is a width, every position is inside the array, and below the width it is the hash value itself. -/
def Obligations.PositionInRange : Prop :=
  ∀ (c : Params) (x : List Byte) (i : BitVec 8) (width : Word), width ≠ 0 →
    position c x i width < width.toNat ∧
    ((c.hash x (seedOf i)).toNat < width.toNat → position c x i width = (c.hash x (seedOf i)).toNat)

/-- R81, R142(g): item bytes from `len` on take no part in a command: two blocks that differ only there do the same in
every engine step of it. -/
def Obligations.ItemTailTakesNoPart : Prop :=
  ∀ (n : Nat) (s t : State), s.curLen.toNat ≤ n → sameUpToItemTail n s t →
    ∀ k u, engineRun .chip k s = .next u →
      ∃ v, engineRun .chip k t = .next v ∧ sameUpToItemTail n u v

/-! ### The engine -/

/-- R50: an engine step never fails and never blocks, in any state that meets the invariant. -/
def Obligations.EngineNeverFails : Prop :=
  ∀ s : State, Inv .chip s → s.busy = true →
    ∃ t, engineStep .chip s = .next t ∧ (t.busy = false ∨ t.idx.toNat = s.idx.toNat + 1)

/-- R51: a command in progress completes after a bounded number of engine steps, and not before: 1 for INIT and RELEASE, the probes left
for INSERT, at most the probes left for QUERY. -/
def Obligations.CommandsComplete : Prop :=
  ∀ s : State, Inv .chip s → s.busy = true →
    ∃ k t, engineRun .chip k s = .next t ∧ t.busy = false ∧ t.done = true ∧ 1 ≤ k ∧
      (∀ j, j < k → ∃ m, engineRun .chip j s = .next m ∧ m.busy = true) ∧
      (s.curOp = .init ∨ s.curOp = .release → k = 1) ∧
      (s.curOp = .insert → k = s.hashCount.toNat - s.idx.toNat) ∧
      (s.curOp = .query → k ≤ s.hashCount.toNat - s.idx.toNat)

/-! ### Registers -/

/-- R22, R23, R24: `ID`, `CAP_WIDTH` and `CAP_ITEM` read their constants and ignore writes. -/
def Obligations.IdentityRegisters : Prop :=
  readsAs 0x000 (fun _ => 0x424C4D01) ∧ writeIgnored 0x000 ∧
  readsAs 0x004 (fun _ => BitVec.ofNat 32 Params.chip.maxWidth) ∧ writeIgnored 0x004 ∧
  readsAs 0x008 (fun _ => BitVec.ofNat 32 Params.chip.itemMax) ∧ writeIgnored 0x008

/-- R30 to R33: `WIDTH`, `HASH_COUNT` and the two halves of `ITEM_COUNT` read the state and ignore writes. -/
def Obligations.FilterRegisters : Prop :=
  readsAs 0x020 (fun s => s.width) ∧ writeIgnored 0x020 ∧
  readsAs 0x024 (fun s => BitVec.ofNat 32 s.hashCount.toNat) ∧ writeIgnored 0x024 ∧
  readsAs 0x028 (fun s => BitVec.ofNat 32 s.itemCount.toNat) ∧ writeIgnored 0x028 ∧
  readsAs 0x02C (fun s => BitVec.ofNat 32 (s.itemCount.toNat / 2 ^ 32)) ∧ writeIgnored 0x02C

/-- The outcome registers (10_state.md section 2): `ERR` and `PROBES` read the state and ignore writes; `CMD` reads 0. -/
def Obligations.OutcomeRegisters : Prop :=
  readsAs 0x014 (fun s => BitVec.ofNat 32 s.errCode.toNat) ∧ writeIgnored 0x014 ∧
  readsAs 0x034 (fun s => BitVec.ofNat 32 s.idx.toNat) ∧ writeIgnored 0x034 ∧
  readsAs 0x030 (fun _ => 0)

/-- R25: `CTRL` reads `ie`; a write with bit 1 set resets and ignores bit 0, any other stores bit 0 in `ie`; busy or
not. -/
def Obligations.CtrlRegister : Prop :=
  readsAs 0x00C (fun s => if s.ie then 1 else 0) ∧
  ∀ (s : State) (v : Word) (rest : List Event), s.schedule = .regWrite 0x00C v :: rest →
    (v.getLsbD 1 = true →
      step s = .next { State.reset with schedule := rest, response := some (.write .okay) }) ∧
    (v.getLsbD 1 = false →
      step s = .next { s with ie := v.getLsbD 0, schedule := rest, response := some (.write .okay) })

/-- R26: `STATUS` reads its six flags in bits 0 to 5 and 0 above; a write with bit 1 set clears `done`, any other write
does nothing; busy or not. -/
def Obligations.StatusRegister : Prop :=
  readsAs 0x010 (fun s => BitVec.ofNat 32
    (s.busy.toNat + 2 * s.done.toNat + 4 * s.error.toNat + 8 * s.ready.toNat + 16 * s.hit.toNat + 32 * s.viol.toNat)) ∧
  ∀ (s : State) (v : Word) (rest : List Event), s.schedule = .regWrite 0x010 v :: rest →
    step s = .next { s with
      done := if v.getLsbD 1 then false else s.done, schedule := rest, response := some (.write .okay) }

/-- R28, R29: the staging registers read back whole, store any value while idle, and are gated while busy. -/
def Obligations.StagingRegisters : Prop :=
  readsAs 0x018 (fun s => s.cfgWidth) ∧ readsAs 0x01C (fun s => s.cfgHashCount) ∧
  ∀ (s : State) (v : Word) (rest : List Event),
    (s.schedule = .regWrite 0x018 v :: rest →
      (s.busy = false →
        step s = .next { s with cfgWidth := v, schedule := rest, response := some (.write .okay) }) ∧
      (s.busy = true →
        step s = .next { s with viol := true, schedule := rest, response := some (.write .okay) })) ∧
    (s.schedule = .regWrite 0x01C v :: rest →
      (s.busy = false →
        step s = .next { s with cfgHashCount := v, schedule := rest, response := some (.write .okay) }) ∧
      (s.busy = true →
        step s = .next { s with viol := true, schedule := rest, response := some (.write .okay) }))

/-- R37, R80: `ITEM[j]` packs item bytes `4j .. 4j+3` little-endian, for reads and for writes while idle; a write leaves
every other item byte and every other element alone. -/
def Obligations.ItemRegister : Prop :=
  ∀ (s : State) (j : Nat), Memory.wf s.item = true → 4 * j < Params.chip.itemMax →
    (∀ rest, s.schedule = .regRead (0x100 + 4 * j) :: rest →
      step s = .next { s with
        schedule := rest,
        response := some (.read .okay (BitVec.ofNat 32
          ((memRead s.item (4 * j)).toNat + 2 ^ 8 * (memRead s.item (4 * j + 1)).toNat +
            2 ^ 16 * (memRead s.item (4 * j + 2)).toNat + 2 ^ 24 * (memRead s.item (4 * j + 3)).toNat))) }) ∧
    (∀ v rest, s.schedule = .regWrite (0x100 + 4 * j) v :: rest → s.busy = false →
      ∃ t, step s = .next t ∧
        t = { s with item := t.item, schedule := rest, response := some (.write .okay) } ∧
        (∀ k, k < 4 → (memRead t.item (4 * j + k)).toNat = v.toNat / 2 ^ (8 * k) % 2 ^ 8) ∧
        (∀ n, n < 4 * j ∨ 4 * j + 4 ≤ n → memRead t.item n = memRead s.item n))

/-- R36, R76: an offset that names no register is answered `ERROR` with data 0, and nothing changes. -/
def Obligations.UnmappedOffsetsAnswerError : Prop :=
  ∀ (s : State) (off : Nat) (rest : List Event), offsetUnmapped .chip off →
    (s.schedule = .regRead off :: rest →
      step s = .next { s with schedule := rest, response := some (.read .error 0) }) ∧
    (∀ v, s.schedule = .regWrite off v :: rest →
      step s = .next { s with schedule := rest, response := some (.write .error) })

/-- R79: no read, of any offset in any state, changes the block; and two reads in a row give the same answer. -/
def Obligations.ReadsHaveNoSideEffect : Prop :=
  ∀ (s : State) (off : Nat) (rest : List Event), s.schedule = .regRead off :: .regRead off :: rest →
    ∃ t u, step s = .next t ∧ t = { s with schedule := .regRead off :: rest, response := t.response } ∧
      step t = .next u ∧ u = { s with schedule := rest, response := t.response }

/-- R78: while busy a write to any busy-gated register sets `viol` and does nothing else, whatever is written. -/
def Obligations.BusyGate : Prop :=
  ∀ (s : State) (off : Nat) (v : Word) (rest : List Event),
    s.schedule = .regWrite off v :: rest → s.busy = true → offsetGated .chip off →
    step s = .next { s with viol := true, schedule := rest, response := some (.write .okay) }

/-- R80, R81, R82: after the words of `pack(x)` are stored from `ITEM[0]` on, `Item(len)` is `x`. -/
def Obligations.PackedItemReadsBack : Prop :=
  ∀ (s : State) (x : List Byte), Memory.wf s.item = true →
    itemBytes { s with item := storeWords s.item 0 (pack x) } x.length = x

/-! ### Flags, interrupt, errors -/

/-- R43: `viol` is set only by a write to a busy-gated register while busy, and cleared only by a reset. -/
def Obligations.ViolIsSticky : Prop :=
  ∀ s t : State, step s = .next t →
    (s.viol = true → t.viol = false → resetIsNext s) ∧
    (s.viol = false → t.viol = true →
      s.busy = true ∧ ∃ off v rest, s.schedule = .regWrite off v :: rest ∧ offsetGated .chip off)

/-- R39: `done` rises only by `complete()` or by a rejection, and falls only by a `STATUS` write with bit 1 set, a command
word processed while idle, or a reset. -/
def Obligations.DoneRule : Prop :=
  ∀ s t : State, step s = .next t →
    (s.done = false → t.done = true →
      (s.busy = true ∧ t.busy = false ∧ t.error = s.error) ∨
      (s.busy = false ∧ t.busy = false ∧ t.error = true ∧ t.errCode ≠ 0)) ∧
    (s.done = true → t.done = false →
      resetIsNext s ∨
      (∃ v rest, s.schedule = .regWrite 0x010 v :: rest ∧ v.getLsbD 1 = true) ∨
      (∃ w rest, s.schedule = .regWrite 0x030 w :: rest ∧ s.busy = false))

/-- R42: `hit` rises only in the completing step of a QUERY whose every probed bit was 1. -/
def Obligations.HitOnlyByFullQuery : Prop :=
  ∀ s t : State, Inv .chip s → step s = .next t → s.hit = false → t.hit = true →
    s.curOp = .query ∧ t.busy = false ∧ t.done = true ∧ t.idx = t.hashCount ∧
    allProbesSet .chip s (itemBytes s s.curLen.toNat)

/-- R41: `ready` rises only in the completing step of INIT, and falls only in the completing step of RELEASE or by a
reset. -/
def Obligations.ReadyRule : Prop :=
  ∀ s t : State, step s = .next t →
    (s.ready = false → t.ready = true → s.curOp = .init ∧ t.busy = false ∧ t.done = true) ∧
    (s.ready = true → t.ready = false → resetIsNext s ∨ (s.curOp = .release ∧ t.busy = false ∧ t.done = true))

/-- R40: a step that sets `error` is a rejected command word on an idle block, and it sets `done` and a code. -/
def Obligations.ErrorOnlyByRejection : Prop :=
  ∀ s t : State, step s = .next t → s.error = false → t.error = true →
    s.busy = false ∧ (∃ w rest, s.schedule = .regWrite 0x030 w :: rest) ∧
    t.done = true ∧ t.errCode ≠ 0 ∧ codeProduced t.errCode

/-- R207: the interrupt is a level, `ie AND done`: completion and rejection raise it when enabled, `ie` masks it without
touching `done`, setting `ie` shows a pending `done` at once, and clearing `DONE` drops it. -/
def Obligations.InterruptLevel : Prop :=
  (∀ s : State, irq s = (s.ie && s.done)) ∧
  (∀ s t : State, step s = .next t → s.done = false → t.done = true → irq t = t.ie ∧ t.ie = s.ie) ∧
  (∀ (s : State) (v : Word) (rest : List Event), s.schedule = .regWrite 0x00C v :: rest → v.getLsbD 1 = false →
    ∃ t, step s = .next t ∧ t.done = s.done ∧ irq t = (v.getLsbD 0 && s.done)) ∧
  (∀ (s : State) (v : Word) (rest : List Event), s.schedule = .regWrite 0x010 v :: rest → v.getLsbD 1 = true →
    ∃ t, step s = .next t ∧ irq t = false)

/-! ### Reset -/

/-- R220: hardware reset, in any state, puts every element at its reset value; no bit of the array has a value then. That
the schedule and the latest answer stay is the model's choice (assumption 10). -/
def Obligations.HardwareReset : Prop :=
  ∀ (s : State) (rest : List Event), s.schedule = .reset :: rest →
    ∃ t, step s = .next t ∧ t.schedule = rest ∧ t.response = s.response ∧
      t.ie = false ∧ t.done = false ∧ t.error = false ∧ t.ready = false ∧ t.hit = false ∧ t.viol = false ∧
      t.errCode = 0 ∧ t.cfgWidth = 0 ∧ t.cfgHashCount = 0 ∧ t.width = 0 ∧ t.hashCount = 0 ∧ t.itemCount = 0 ∧
      t.idx = 0 ∧ t.curOp = .none ∧ t.curLen = 0 ∧ (∀ n, memRead t.item n = 0) ∧ (∀ p, bitRead t p = none) ∧
      irq t = false

/-- R221: soft reset has exactly the effect of hardware reset, in every state, busy or not, and is answered `OKAY`. -/
def Obligations.SoftResetIsHardwareReset : Prop :=
  ∀ (s : State) (v : Word) (rest : List Event), v.getLsbD 1 = true →
    ∃ t u, step { s with schedule := .regWrite 0x00C v :: rest } = .next t ∧
      step { s with schedule := .reset :: rest } = .next u ∧
      t = { u with response := some (.write .okay) } ∧
      t.viol = false ∧ t.busy = false ∧ t.done = false ∧ t.ready = false

/-- R222: after reset no command but INIT is accepted. -/
def Obligations.OnlyInitAfterReset : Prop :=
  ∀ (s : State) (w : Word) (i : Instr), s.ready = false → s.busy = false → decode w = .ok i →
    ∃ t, step { s with schedule := [.regWrite 0x030 w] } = .next t ∧
      (t.busy = true → i = .init) ∧ (i ≠ .init → t.errCode = 6)

/-! ### Invariants and whole-machine rules -/

/-- The reset state meets the invariant (R21, R220). -/
def Obligations.ResetMeetsInv : Prop := Inv .chip State.reset

/-- R21: every step keeps the invariant, whatever the schedule holds. -/
def Obligations.StepKeepsInv : Prop :=
  ∀ s t : State, Inv .chip s → step s = .next t → Inv .chip t

/-- R50, R161, R204: from a state that meets the invariant no step faults and none is refused: every read and every set of
a bit is inside the array, and no ordinary input ends a run. -/
def Obligations.StepNeverStops : Prop :=
  ∀ s : State, Inv .chip s → ∃ t, step s = .next t ∧ Inv .chip t

/-- R21(c): `width` and `hash_count` change only in the completing step of INIT or RELEASE, or by a reset. -/
def Obligations.ConfigurationIsImmutable : Prop :=
  ∀ s t : State, step s = .next t → t.width ≠ s.width ∨ t.hashCount ≠ s.hashCount →
    resetIsNext s ∨ ((s.curOp = .init ∨ s.curOp = .release) ∧ t.busy = false ∧ t.done = true)

/-- R21(e): within a configured period no step clears a bit. -/
def Obligations.BitsAreNeverCleared : Prop :=
  ∀ (s t : State) (p : Nat), Inv .chip s → step s = .next t → s.ready = true → t.ready = true →
    bitRead s p = some true → bitRead t p = some true

/-- R21(d): within a configured period `item_count` stays or goes up by exactly 1, the latter only in the completing step
of an INSERT. -/
def Obligations.ItemCountGoesUpByOne : Prop :=
  ∀ s t : State, Inv .chip s → step s = .next t → s.ready = true → t.ready = true →
    t.itemCount = s.itemCount ∨
    (t.itemCount.toNat = s.itemCount.toNat + 1 ∧ s.curOp = .insert ∧ t.busy = false ∧ t.done = true)

/-- R154, no false negatives: if an INSERT of an item completes, then, after any further steps within the same configured
period, a QUERY of the same byte sequence that completes answers hit after `hash_count` probes. The steps between may be
any transactions and engine steps the schedule holds. -/
def Obligations.NoFalseNegatives : Prop :=
  ∀ s t u v : State, Inv .chip s →
    s.curOp = .insert → step s = .next t → t.busy = false →
    SamePeriod t u → u.curOp = .query → itemBytes u u.curLen.toNat = itemBytes s s.curLen.toNat →
    step u = .next v → v.busy = false → v.ready = true →
    v.hit = true ∧ v.idx = v.hashCount

/-! ### Executions without end -/

/-- R9 with R51: in every weakly fair execution, host transactions without end included, the invariant holds throughout and
whatever command is in progress comes to its end: "the block therefore never hangs". -/
def Obligations.FairExecutionsComplete : Prop :=
  ∀ (events : Nat → Option Event) (states : Nat → State),
    Inv .chip (states 0) → Execution events states → WeaklyFair events states →
    (∀ n, Inv .chip (states n)) ∧
    ∀ n, (states n).busy = true → ∃ m, n < m ∧ (states m).busy = false

/-! ### Beside the block -/

/-- R183's checks in their order, on every rate and `max_items` and whatever the host's arithmetic and its comparison of
rates are: a NaN, a rate outside (0, 1) and a zero `max_items` are refused (U11), and so is a pair out of range. A pair that
is returned is the derived one, at least (1, 1) (R185(a)), and, staged on an idle unconfigured block, passes every check of
INIT (R186). -/
def Obligations.HostDerivedPairIsAccepted : Prop :=
  ∀ [DecidablePred rateInRange] (a : HostArith) (c : Params) (n : Nat),
    hostDerive a c .nan n = .error .invalidParameter ∧
    (∀ f : ℝ, f ≤ 0 ∨ 1 ≤ f ∨ n = 0 → hostDerive a c (.number f) n = .error .invalidParameter) ∧
    (∀ (f : ℝ) (w k : Nat), 0 < f → f < 1 → n ≠ 0 → w = derivedWidth a f n → k = derivedCount a w n →
      1 ≤ w ∧ 1 ≤ k ∧
      (255 < k → hostDerive a c (.number f) n = .error .tooManyHashFunctions) ∧
      (k ≤ 255 → 2 ^ 32 - 1 < w → hostDerive a c (.number f) n = .error .bitWidthOverflow) ∧
      (k ≤ 255 → w ≤ 2 ^ 32 - 1 → c.maxWidth < w → hostDerive a c (.number f) n = .error .outOfMemory) ∧
      (k ≤ 255 → w ≤ c.maxWidth → hostDerive a c (.number f) n = .ok (w, k))) ∧
    (∀ (rate : HostRate) (pair : Nat × Nat) (s : State), hostDerive a .chip rate n = .ok pair →
      s.busy = false → s.ready = false → ∃ t, exec .init (stage pair s) = .next t ∧ t.curOp = .init)

/-- R185(b), (c), (d): the widths and hash counts the document's examples name, by arithmetic without error. -/
def Obligations.HostSizingExamples : Prop :=
  ∀ a : HostArith, exactArith a →
    (9500 ≤ derivedWidth a (1 / 100) 1000 ∧ derivedWidth a (1 / 100) 1000 ≤ 9600) ∧
    (470 ≤ derivedWidth a (1 / 10) 100 ∧ derivedWidth a (1 / 10) 100 ≤ 485) ∧
    derivedCount a 9585 1000 = 6 ∧ derivedCount a 479 100 = 3 ∧
    derivedWidth a (999 / 1000) 1 = 1 ∧ derivedCount a 1 100 = 1

/-- R185(e), the half that is a law: a smaller rate never derives a smaller width. -/
def Obligations.HostWidthIsMonotone : Prop :=
  ∀ (a : HostArith) (f g : ℝ) (n : Nat), exactArith a → 0 < f → f ≤ g → g < 1 → 0 < n →
    derivedWidth a g n ≤ derivedWidth a f n

/-- R165: the anchor values of the reference hash. -/
def Obligations.ReferenceHashAnchors : Prop :=
  hashRef [] 0 = 0x00000000 ∧ hashRef [] 1 = 0x514E28B7 ∧
  hashRef [0x68, 0x65, 0x6C, 0x6C, 0x6F] 0 = 0x248BFA47
end

