-- ==== Sys2Proof/Laws/Encoding.lean ====
section
/-! SUPPORT. The fields of a command word as numbers, and what the decoder makes of them. -/

namespace Sys2Proof

theorem opcodeField_toNat (w : Word) : (opcodeField w).toNat = w.toNat % 256 := by
  simp [opcodeField, BitVec.extractLsb'_toNat]

theorem reservedFieldCL_toNat (w : Word) : (reservedFieldCL w).toNat = w.toNat / 256 % 256 := by
  simp [reservedFieldCL, BitVec.extractLsb'_toNat, Nat.shiftRight_eq_div_pow]

theorem reservedFieldC0_toNat (w : Word) : (reservedFieldC0 w).toNat = w.toNat / 256 := by
  have := w.isLt
  simp [reservedFieldC0, BitVec.extractLsb'_toNat, Nat.shiftRight_eq_div_pow]
  omega

theorem lenField_toNat (w : Word) : (lenField w).toNat = w.toNat / 65536 := by
  have := w.isLt
  simp [lenField, BitVec.extractLsb'_toNat, Nat.shiftRight_eq_div_pow]
  omega

theorem encode_init_toNat : (encode .init).toNat = 1 := rfl

theorem encode_release_toNat : (encode .release).toNat = 4 := rfl

/-- A format CL word as a number: the length above bit 16, the opcode below. -/
theorem append16_toNat {len : Nat} (h : len < 65536) {op : Nat} (ho : op < 65536) :
    (BitVec.ofNat 16 len ++ BitVec.ofNat 16 op).toNat = 65536 * len + op := by
  rw [BitVec.toNat_append, BitVec.toNat_ofNat, BitVec.toNat_ofNat, Nat.mod_eq_of_lt h, Nat.mod_eq_of_lt ho,
    Nat.shiftLeft_eq, Nat.mul_comm, ← Nat.two_pow_add_eq_or_of_lt ho]

theorem encode_insert_toNat {len : Nat} (h : len < 65536) : (encode (.insert len)).toNat = 65536 * len + 2 :=
  append16_toNat h (by decide)

theorem encode_query_toNat {len : Nat} (h : len < 65536) : (encode (.query len)).toNat = 65536 * len + 3 :=
  append16_toNat h (by decide)

/-- The decoder on the number the word is. -/
theorem decode_eq (w : Word) :
    decode w =
      if w.toNat % 256 = 1 then if w.toNat / 256 = 0 then .ok .init else .error .reservedBitsC0
      else if w.toNat % 256 = 2 then
        if w.toNat / 256 % 256 = 0 then .ok (.insert (w.toNat / 65536)) else .error .reservedBitsCL
      else if w.toNat % 256 = 3 then
        if w.toNat / 256 % 256 = 0 then .ok (.query (w.toNat / 65536)) else .error .reservedBitsCL
      else if w.toNat % 256 = 4 then if w.toNat / 256 = 0 then .ok .release else .error .reservedBitsC0
      else .error .unusedOpcode := by
  have op : ∀ k : BitVec 8, opcodeField w = k ↔ w.toNat % 256 = k.toNat := fun k => by
    rw [← BitVec.toNat_inj, opcodeField_toNat]
  have c0 : reservedFieldC0 w = 0 ↔ w.toNat / 256 = 0 := by
    rw [← BitVec.toNat_inj, reservedFieldC0_toNat]; rfl
  have cl : reservedFieldCL w = 0 ↔ w.toNat / 256 % 256 = 0 := by
    rw [← BitVec.toNat_inj, reservedFieldCL_toNat]; rfl
  simp only [decode, decodeC0, decodeCL, op, c0, cl, lenField_toNat]
  rfl

/-- The decoder by the number the word is, one case per outcome (R105). -/
theorem decode_cases (w : Word) :
    (w.toNat = 1 ∧ decode w = .ok .init) ∨ (w.toNat = 4 ∧ decode w = .ok .release) ∨
    (w.toNat % 65536 = 2 ∧ decode w = .ok (.insert (w.toNat / 65536))) ∨
    (w.toNat % 65536 = 3 ∧ decode w = .ok (.query (w.toNat / 65536))) ∨
    (w.toNat ≠ 1 ∧ w.toNat ≠ 4 ∧ w.toNat % 65536 ≠ 2 ∧ w.toNat % 65536 ≠ 3 ∧
      ∃ reason, decode w = .error reason) := by
  rw [decode_eq]
  split
  · split
    · exact .inl ⟨by omega, rfl⟩
    · exact .inr (.inr (.inr (.inr ⟨by omega, by omega, by omega, by omega, _, rfl⟩)))
  split
  · split
    · exact .inr (.inr (.inl ⟨by omega, rfl⟩))
    · exact .inr (.inr (.inr (.inr ⟨by omega, by omega, by omega, by omega, _, rfl⟩)))
  split
  · split
    · exact .inr (.inr (.inr (.inl ⟨by omega, rfl⟩)))
    · exact .inr (.inr (.inr (.inr ⟨by omega, by omega, by omega, by omega, _, rfl⟩)))
  split
  · split
    · exact .inr (.inl ⟨by omega, rfl⟩)
    · exact .inr (.inr (.inr (.inr ⟨by omega, by omega, by omega, by omega, _, rfl⟩)))
  exact .inr (.inr (.inr (.inr ⟨by omega, by omega, by omega, by omega, _, rfl⟩)))

end Sys2Proof
end

