-- ==== Sys2Proof/Laws/Memory.lean ====
section
/-! SUPPORT. The laws of the two memories: read after write, canonical form, bounds; and of the item words. -/

namespace Sys2Proof.Machine

/-! ### The item buffer -/

theorem memRead_of_above {m : Memory} {n k : Nat} (h : memAbove n m = true) (hk : k ≤ n) :
    memRead m k = unlistedByte := by
  induction m with
  | nil => rfl
  | cons cell m ih =>
    obtain ⟨a, b⟩ := cell
    simp only [memAbove, Bool.and_eq_true, decide_eq_true_eq] at h
    have : a ≠ k := by omega
    simp [memRead, this, ih h.2]

theorem memAbove_mono {m : Memory} {n k : Nat} (h : memAbove n m = true) (hk : k ≤ n) :
    memAbove k m = true := by
  induction m with
  | nil => rfl
  | cons cell m ih =>
    obtain ⟨a, b⟩ := cell
    simp only [memAbove, Bool.and_eq_true, decide_eq_true_eq] at h ⊢
    exact ⟨by omega, ih h.2⟩

theorem memRead_memCell {m : Memory} {n : Nat} (v : Byte) (h : memRead m n = unlistedByte) (k : Nat) :
    memRead (memCell n v m) k = if k = n then v else memRead m k := by
  unfold memCell
  by_cases hv : v = unlistedByte
  · simp only [hv, if_true]
    split
    · next hk => rw [hk, h]
    · rfl
  · by_cases hk : k = n
    · simp [hv, hk, memRead]
    · have : n ≠ k := fun e => hk e.symm
      simp [hv, hk, this, memRead]

/-- Read after write (R37): the written byte, and every other byte as it was. -/
theorem memRead_memWrite {m : Memory} (h : Memory.wf m = true) (n : Nat) (v : Byte) (k : Nat) :
    memRead (memWrite m n v) k = if k = n then v else memRead m k := by
  induction m with
  | nil => exact memRead_memCell v rfl k
  | cons cell m ih =>
    obtain ⟨a, b⟩ := cell
    simp only [Memory.wf, Bool.and_eq_true] at h
    unfold memWrite
    split
    · next hna =>
      refine memRead_memCell v ?_ k
      have : a ≠ n := by omega
      simp [memRead, this, memRead_of_above h.1.2 (Nat.le_of_lt hna)]
    · split
      · next _ hna =>
        subst hna
        rw [memRead_memCell v (memRead_of_above h.1.2 (Nat.le_refl _))]
        by_cases hk : k = n
        · simp [hk]
        · have : n ≠ k := fun e => hk e.symm
          simp [hk, memRead, this]
      · next h1 h2 =>
        by_cases hk : a = k
        · subst hk
          have : a ≠ n := fun e => h2 e.symm
          simp [memRead, this]
        · simp [memRead, hk, ih h.2]

theorem memAbove_memCell {m : Memory} {n k : Nat} (v : Byte) (h : memAbove k m = true) (hk : k < n) :
    memAbove k (memCell n v m) = true := by
  unfold memCell
  split
  · exact h
  · simp [memAbove, hk, h]

theorem memAbove_memWrite {m : Memory} {n k : Nat} (v : Byte) (h : memAbove k m = true) (hk : k < n) :
    memAbove k (memWrite m n v) = true := by
  induction m with
  | nil => exact memAbove_memCell v h hk
  | cons cell m ih =>
    obtain ⟨a, b⟩ := cell
    have h' := h
    simp only [memAbove, Bool.and_eq_true, decide_eq_true_eq] at h'
    unfold memWrite
    split
    · exact memAbove_memCell v h hk
    · split
      · exact memAbove_memCell v h'.2 hk
      · simp [memAbove, h'.1, ih h'.2]

theorem memCell_wf {m : Memory} {n : Nat} (v : Byte) (h : Memory.wf m = true) (ha : memAbove n m = true) :
    Memory.wf (memCell n v m) = true := by
  unfold memCell
  split
  · exact h
  · next hv => simp [Memory.wf, hv, ha, h]

/-- A write keeps the canonical form. -/
theorem memWrite_wf {m : Memory} (h : Memory.wf m = true) (n : Nat) (v : Byte) :
    Memory.wf (memWrite m n v) = true := by
  induction m with
  | nil => exact memCell_wf v rfl rfl
  | cons cell m ih =>
    obtain ⟨a, b⟩ := cell
    have h' := h
    simp only [Memory.wf, Bool.and_eq_true] at h'
    unfold memWrite
    split
    · next hna =>
      refine memCell_wf v h ?_
      simp [memAbove, hna, memAbove_mono h'.1.2 (Nat.le_of_lt hna)]
    · split
      · next hna =>
        subst hna
        exact memCell_wf v h'.2 h'.1.2
      · next h1 h2 =>
        have : a < n := by omega
        simp [Memory.wf, h'.1.1, ih h'.2, memAbove_memWrite v h'.1.2 this]

theorem indexesBelow_memWrite {m : Memory} {n k : Nat} (v : Byte)
    (h : ∀ cell ∈ m, cell.1 < k) (hn : n < k) : ∀ cell ∈ memWrite m n v, cell.1 < k := by
  have cellCase : ∀ m' : Memory, (∀ cell ∈ m', cell.1 < k) → ∀ cell ∈ memCell n v m', cell.1 < k := by
    intro m' h' cell hc
    unfold memCell at hc
    split at hc
    · exact h' cell hc
    · rcases List.mem_cons.mp hc with rfl | hc
      · exact hn
      · exact h' cell hc
  induction m with
  | nil => exact cellCase [] h
  | cons cell m ih =>
    obtain ⟨a, b⟩ := cell
    have ht : ∀ cell ∈ m, cell.1 < k := fun c hc => h c (List.mem_cons_of_mem _ hc)
    unfold memWrite
    split
    · exact cellCase _ h
    · split
      · exact cellCase _ ht
      · intro c hc
        rcases List.mem_cons.mp hc with rfl | hc
        · exact h _ List.mem_cons_self
        · exact ih ht c hc

/-! ### Item words -/

theorem writeItemWord_wf {m : Memory} (h : Memory.wf m = true) (j : Nat) (v : Word) :
    Memory.wf (writeItemWord m j v) = true :=
  memWrite_wf (memWrite_wf (memWrite_wf (memWrite_wf h _ _) _ _) _ _) _ _

theorem indexesBelow_writeItemWord {m : Memory} {j k : Nat} (v : Word)
    (h : ∀ cell ∈ m, cell.1 < k) (hj : j + 3 < k) : ∀ cell ∈ writeItemWord m j v, cell.1 < k :=
  indexesBelow_memWrite _ (indexesBelow_memWrite _ (indexesBelow_memWrite _
    (indexesBelow_memWrite _ h (by omega)) (by omega)) (by omega)) hj

/-- What a word write leaves in each item byte (R37). -/
theorem memRead_writeItemWord {m : Memory} (h : Memory.wf m = true) (j : Nat) (v : Word) (n : Nat) :
    memRead (writeItemWord m j v) n =
      if n < j ∨ j + 4 ≤ n then memRead m n else wordByte v (n - j) := by
  have h0 := memWrite_wf h j (wordByte v 0)
  have h1 := memWrite_wf h0 (j + 1) (wordByte v 1)
  have h2 := memWrite_wf h1 (j + 2) (wordByte v 2)
  unfold writeItemWord
  rw [memRead_memWrite h2, memRead_memWrite h1, memRead_memWrite h0, memRead_memWrite h]
  by_cases hout : n < j ∨ j + 4 ≤ n
  · rw [if_pos hout, if_neg (by omega), if_neg (by omega), if_neg (by omega), if_neg (by omega)]
  · rw [if_neg hout]
    have : n = j ∨ n = j + 1 ∨ n = j + 2 ∨ n = j + 3 := by omega
    rcases this with rfl | rfl | rfl | rfl <;> simp

theorem wordByte_toNat (v : Word) (k : Nat) : (wordByte v k).toNat = v.toNat / 2 ^ (8 * k) % 2 ^ 8 := by
  simp [wordByte, BitVec.extractLsb'_toNat, Nat.shiftRight_eq_div_pow]

theorem append_byte_toNat {n : Nat} (x : BitVec n) (b : Byte) :
    (x ++ b).toNat = 256 * x.toNat + b.toNat := by
  rw [BitVec.toNat_append, Nat.shiftLeft_eq, Nat.mul_comm, ← Nat.two_pow_add_eq_or_of_lt b.isLt]

theorem readItemWord_toNat (m : Memory) (j : Nat) :
    (readItemWord m j).toNat =
      (memRead m j).toNat + 2 ^ 8 * (memRead m (j + 1)).toNat +
        2 ^ 16 * (memRead m (j + 2)).toNat + 2 ^ 24 * (memRead m (j + 3)).toNat := by
  unfold readItemWord
  rw [append_byte_toNat, append_byte_toNat, append_byte_toNat]
  omega

/-! ### `Item(n)` -/

theorem itemFrom_congr {m m' : Memory} {k n : Nat} (h : ∀ i, k ≤ i → i < k + n → memRead m' i = memRead m i) :
    itemFrom m' k n = itemFrom m k n := by
  induction n generalizing k with
  | zero => rfl
  | succ n ih =>
    simp only [itemFrom, List.cons.injEq]
    exact ⟨h k (Nat.le_refl _) (by omega), ih fun i h1 h2 => h i (by omega) (by omega)⟩

theorem itemFrom_length (m : Memory) (k n : Nat) : (itemFrom m k n).length = n := by
  induction n generalizing k with
  | zero => rfl
  | succ n ih => simp [itemFrom, ih]

/-! ### The bit array -/

theorem bitListed_iff (b : BitSet) (p : Nat) : bitListed b p = true ↔ p ∈ b := by
  induction b with
  | nil => simp [bitListed]
  | cons q b ih =>
    simp only [bitListed, Bool.or_eq_true, decide_eq_true_eq, ih, List.mem_cons]
    exact or_congr eq_comm Iff.rfl

theorem mem_bitInsert (b : BitSet) (p q : Nat) : q ∈ bitInsert b p ↔ q = p ∨ q ∈ b := by
  induction b with
  | nil => simp [bitInsert]
  | cons a b ih =>
    unfold bitInsert
    split
    · simp
    · split
      · next _ h => simp [h]
      · simp [ih]; tauto

/-- What one `BitSet` leaves in each position (R72). -/
theorem bitListed_bitInsert (b : BitSet) (p q : Nat) :
    bitListed (bitInsert b p) q = if q = p then true else bitListed b q := by
  rw [Bool.eq_iff_iff, bitListed_iff, mem_bitInsert]
  split
  · next h => simp [h]
  · next h => simp [h, bitListed_iff]

theorem bitsAbove_iff (b : BitSet) (p : Nat) : bitsAbove p b = true ↔ ∀ q ∈ b, p < q := by
  induction b with
  | nil => simp [bitsAbove]
  | cons a b ih => simp [bitsAbove, ih]

/-- `BitSet` keeps the canonical form. -/
theorem bitInsert_wf {b : BitSet} (h : BitSet.wf b = true) (p : Nat) : BitSet.wf (bitInsert b p) = true := by
  induction b with
  | nil => rfl
  | cons a b ih =>
    have h' := h
    simp only [BitSet.wf, Bool.and_eq_true] at h'
    unfold bitInsert
    split
    · next hpa =>
      have : bitsAbove p b = true := (bitsAbove_iff b p).mpr fun q hq =>
        Nat.lt_trans hpa ((bitsAbove_iff b a).mp h'.1 q hq)
      simp only [BitSet.wf, bitsAbove, h'.1, h'.2, this, hpa]
      simp
    · split
      · exact h
      · next h1 h2 =>
        have : bitsAbove a (bitInsert b p) = true := (bitsAbove_iff _ a).mpr fun q hq => by
          rcases (mem_bitInsert b p q).mp hq with rfl | hq
          · omega
          · exact (bitsAbove_iff b a).mp h'.1 q hq
        simp [BitSet.wf, this, ih h'.2]

/-- "idempotent if already set" (R72), as equal data. -/
theorem bitInsert_of_mem {b : BitSet} (h : BitSet.wf b = true) {p : Nat} (hp : p ∈ b) : bitInsert b p = b := by
  induction b with
  | nil => simp at hp
  | cons a b ih =>
    simp only [BitSet.wf, Bool.and_eq_true] at h
    unfold bitInsert
    rcases List.mem_cons.mp hp with rfl | hp
    · simp
    · have : a < p := (bitsAbove_iff b a).mp h.1 p hp
      rw [if_neg (by omega), if_neg (by omega), ih h.2 hp]

end Sys2Proof.Machine
end

