-- ==== Sys2Proof/Laws/State.lean ====
section
/-! SUPPORT. One lemma per field of `State` for each named update, and what each reads from the state it updates. -/

namespace Sys2Proof.Machine

/-! ### `clearOutcome` -/

@[simp] theorem clearOutcome_ie (s : State) : (clearOutcome s).ie = s.ie := rfl
@[simp] theorem clearOutcome_done (s : State) : (clearOutcome s).done = false := rfl
@[simp] theorem clearOutcome_error (s : State) : (clearOutcome s).error = false := rfl
@[simp] theorem clearOutcome_ready (s : State) : (clearOutcome s).ready = s.ready := rfl
@[simp] theorem clearOutcome_hit (s : State) : (clearOutcome s).hit = false := rfl
@[simp] theorem clearOutcome_viol (s : State) : (clearOutcome s).viol = s.viol := rfl
@[simp] theorem clearOutcome_errCode (s : State) : (clearOutcome s).errCode = 0 := rfl
@[simp] theorem clearOutcome_cfgWidth (s : State) : (clearOutcome s).cfgWidth = s.cfgWidth := rfl
@[simp] theorem clearOutcome_cfgHashCount (s : State) : (clearOutcome s).cfgHashCount = s.cfgHashCount := rfl
@[simp] theorem clearOutcome_width (s : State) : (clearOutcome s).width = s.width := rfl
@[simp] theorem clearOutcome_hashCount (s : State) : (clearOutcome s).hashCount = s.hashCount := rfl
@[simp] theorem clearOutcome_itemCount (s : State) : (clearOutcome s).itemCount = s.itemCount := rfl
@[simp] theorem clearOutcome_idx (s : State) : (clearOutcome s).idx = s.idx := rfl
@[simp] theorem clearOutcome_curOp (s : State) : (clearOutcome s).curOp = s.curOp := rfl
@[simp] theorem clearOutcome_curLen (s : State) : (clearOutcome s).curLen = s.curLen := rfl
@[simp] theorem clearOutcome_item (s : State) : (clearOutcome s).item = s.item := rfl
@[simp] theorem clearOutcome_bitArray (s : State) : (clearOutcome s).bitArray = s.bitArray := rfl
@[simp] theorem clearOutcome_schedule (s : State) : (clearOutcome s).schedule = s.schedule := rfl
@[simp] theorem clearOutcome_response (s : State) : (clearOutcome s).response = s.response := rfl

/-! ### `reject` -/

@[simp] theorem reject_ie (e : ErrorName) (s : State) : (reject e s).ie = s.ie := rfl
@[simp] theorem reject_done (e : ErrorName) (s : State) : (reject e s).done = true := rfl
@[simp] theorem reject_error (e : ErrorName) (s : State) : (reject e s).error = true := rfl
@[simp] theorem reject_ready (e : ErrorName) (s : State) : (reject e s).ready = s.ready := rfl
@[simp] theorem reject_hit (e : ErrorName) (s : State) : (reject e s).hit = s.hit := rfl
@[simp] theorem reject_viol (e : ErrorName) (s : State) : (reject e s).viol = s.viol := rfl
@[simp] theorem reject_errCode (e : ErrorName) (s : State) : (reject e s).errCode = errorCode e := rfl
@[simp] theorem reject_cfgWidth (e : ErrorName) (s : State) : (reject e s).cfgWidth = s.cfgWidth := rfl
@[simp] theorem reject_cfgHashCount (e : ErrorName) (s : State) : (reject e s).cfgHashCount = s.cfgHashCount := rfl
@[simp] theorem reject_width (e : ErrorName) (s : State) : (reject e s).width = s.width := rfl
@[simp] theorem reject_hashCount (e : ErrorName) (s : State) : (reject e s).hashCount = s.hashCount := rfl
@[simp] theorem reject_itemCount (e : ErrorName) (s : State) : (reject e s).itemCount = s.itemCount := rfl
@[simp] theorem reject_idx (e : ErrorName) (s : State) : (reject e s).idx = s.idx := rfl
@[simp] theorem reject_curOp (e : ErrorName) (s : State) : (reject e s).curOp = s.curOp := rfl
@[simp] theorem reject_curLen (e : ErrorName) (s : State) : (reject e s).curLen = s.curLen := rfl
@[simp] theorem reject_item (e : ErrorName) (s : State) : (reject e s).item = s.item := rfl
@[simp] theorem reject_bitArray (e : ErrorName) (s : State) : (reject e s).bitArray = s.bitArray := rfl
@[simp] theorem reject_schedule (e : ErrorName) (s : State) : (reject e s).schedule = s.schedule := rfl
@[simp] theorem reject_response (e : ErrorName) (s : State) : (reject e s).response = s.response := rfl

/-! ### `accept` -/

@[simp] theorem accept_ie (op : Op) (n : Nat) (s : State) : (accept op n s).ie = s.ie := rfl
@[simp] theorem accept_done (op : Op) (n : Nat) (s : State) : (accept op n s).done = s.done := rfl
@[simp] theorem accept_error (op : Op) (n : Nat) (s : State) : (accept op n s).error = s.error := rfl
@[simp] theorem accept_ready (op : Op) (n : Nat) (s : State) : (accept op n s).ready = s.ready := rfl
@[simp] theorem accept_hit (op : Op) (n : Nat) (s : State) : (accept op n s).hit = s.hit := rfl
@[simp] theorem accept_viol (op : Op) (n : Nat) (s : State) : (accept op n s).viol = s.viol := rfl
@[simp] theorem accept_errCode (op : Op) (n : Nat) (s : State) : (accept op n s).errCode = s.errCode := rfl
@[simp] theorem accept_cfgWidth (op : Op) (n : Nat) (s : State) : (accept op n s).cfgWidth = s.cfgWidth := rfl
@[simp] theorem accept_cfgHashCount (op : Op) (n : Nat) (s : State) : (accept op n s).cfgHashCount = s.cfgHashCount := rfl
@[simp] theorem accept_width (op : Op) (n : Nat) (s : State) : (accept op n s).width = s.width := rfl
@[simp] theorem accept_hashCount (op : Op) (n : Nat) (s : State) : (accept op n s).hashCount = s.hashCount := rfl
@[simp] theorem accept_itemCount (op : Op) (n : Nat) (s : State) : (accept op n s).itemCount = s.itemCount := rfl
@[simp] theorem accept_idx (op : Op) (n : Nat) (s : State) : (accept op n s).idx = 0 := rfl
@[simp] theorem accept_curOp (op : Op) (n : Nat) (s : State) : (accept op n s).curOp = op := rfl
@[simp] theorem accept_curLen (op : Op) (n : Nat) (s : State) : (accept op n s).curLen = BitVec.ofNat 16 n := rfl
@[simp] theorem accept_item (op : Op) (n : Nat) (s : State) : (accept op n s).item = s.item := rfl
@[simp] theorem accept_bitArray (op : Op) (n : Nat) (s : State) : (accept op n s).bitArray = s.bitArray := rfl
@[simp] theorem accept_schedule (op : Op) (n : Nat) (s : State) : (accept op n s).schedule = s.schedule := rfl
@[simp] theorem accept_response (op : Op) (n : Nat) (s : State) : (accept op n s).response = s.response := rfl

/-! ### `complete` -/

@[simp] theorem complete_ie (s : State) : (complete s).ie = s.ie := rfl
@[simp] theorem complete_done (s : State) : (complete s).done = true := rfl
@[simp] theorem complete_error (s : State) : (complete s).error = s.error := rfl
@[simp] theorem complete_ready (s : State) : (complete s).ready = s.ready := rfl
@[simp] theorem complete_hit (s : State) : (complete s).hit = s.hit := rfl
@[simp] theorem complete_viol (s : State) : (complete s).viol = s.viol := rfl
@[simp] theorem complete_errCode (s : State) : (complete s).errCode = s.errCode := rfl
@[simp] theorem complete_cfgWidth (s : State) : (complete s).cfgWidth = s.cfgWidth := rfl
@[simp] theorem complete_cfgHashCount (s : State) : (complete s).cfgHashCount = s.cfgHashCount := rfl
@[simp] theorem complete_width (s : State) : (complete s).width = s.width := rfl
@[simp] theorem complete_hashCount (s : State) : (complete s).hashCount = s.hashCount := rfl
@[simp] theorem complete_itemCount (s : State) : (complete s).itemCount = s.itemCount := rfl
@[simp] theorem complete_idx (s : State) : (complete s).idx = s.idx := rfl
@[simp] theorem complete_curOp (s : State) : (complete s).curOp = .none := rfl
@[simp] theorem complete_curLen (s : State) : (complete s).curLen = 0 := rfl
@[simp] theorem complete_item (s : State) : (complete s).item = s.item := rfl
@[simp] theorem complete_bitArray (s : State) : (complete s).bitArray = s.bitArray := rfl
@[simp] theorem complete_schedule (s : State) : (complete s).schedule = s.schedule := rfl
@[simp] theorem complete_response (s : State) : (complete s).response = s.response := rfl

/-! ### `violate` -/

@[simp] theorem violate_ie (s : State) : (violate s).ie = s.ie := rfl
@[simp] theorem violate_done (s : State) : (violate s).done = s.done := rfl
@[simp] theorem violate_error (s : State) : (violate s).error = s.error := rfl
@[simp] theorem violate_ready (s : State) : (violate s).ready = s.ready := rfl
@[simp] theorem violate_hit (s : State) : (violate s).hit = s.hit := rfl
@[simp] theorem violate_viol (s : State) : (violate s).viol = true := rfl
@[simp] theorem violate_errCode (s : State) : (violate s).errCode = s.errCode := rfl
@[simp] theorem violate_cfgWidth (s : State) : (violate s).cfgWidth = s.cfgWidth := rfl
@[simp] theorem violate_cfgHashCount (s : State) : (violate s).cfgHashCount = s.cfgHashCount := rfl
@[simp] theorem violate_width (s : State) : (violate s).width = s.width := rfl
@[simp] theorem violate_hashCount (s : State) : (violate s).hashCount = s.hashCount := rfl
@[simp] theorem violate_itemCount (s : State) : (violate s).itemCount = s.itemCount := rfl
@[simp] theorem violate_idx (s : State) : (violate s).idx = s.idx := rfl
@[simp] theorem violate_curOp (s : State) : (violate s).curOp = s.curOp := rfl
@[simp] theorem violate_curLen (s : State) : (violate s).curLen = s.curLen := rfl
@[simp] theorem violate_item (s : State) : (violate s).item = s.item := rfl
@[simp] theorem violate_bitArray (s : State) : (violate s).bitArray = s.bitArray := rfl
@[simp] theorem violate_schedule (s : State) : (violate s).schedule = s.schedule := rfl
@[simp] theorem violate_response (s : State) : (violate s).response = s.response := rfl

/-! ### `respond` -/

@[simp] theorem respond_ie (r : Response) (s : State) : (respond r s).ie = s.ie := rfl
@[simp] theorem respond_done (r : Response) (s : State) : (respond r s).done = s.done := rfl
@[simp] theorem respond_error (r : Response) (s : State) : (respond r s).error = s.error := rfl
@[simp] theorem respond_ready (r : Response) (s : State) : (respond r s).ready = s.ready := rfl
@[simp] theorem respond_hit (r : Response) (s : State) : (respond r s).hit = s.hit := rfl
@[simp] theorem respond_viol (r : Response) (s : State) : (respond r s).viol = s.viol := rfl
@[simp] theorem respond_errCode (r : Response) (s : State) : (respond r s).errCode = s.errCode := rfl
@[simp] theorem respond_cfgWidth (r : Response) (s : State) : (respond r s).cfgWidth = s.cfgWidth := rfl
@[simp] theorem respond_cfgHashCount (r : Response) (s : State) : (respond r s).cfgHashCount = s.cfgHashCount := rfl
@[simp] theorem respond_width (r : Response) (s : State) : (respond r s).width = s.width := rfl
@[simp] theorem respond_hashCount (r : Response) (s : State) : (respond r s).hashCount = s.hashCount := rfl
@[simp] theorem respond_itemCount (r : Response) (s : State) : (respond r s).itemCount = s.itemCount := rfl
@[simp] theorem respond_idx (r : Response) (s : State) : (respond r s).idx = s.idx := rfl
@[simp] theorem respond_curOp (r : Response) (s : State) : (respond r s).curOp = s.curOp := rfl
@[simp] theorem respond_curLen (r : Response) (s : State) : (respond r s).curLen = s.curLen := rfl
@[simp] theorem respond_item (r : Response) (s : State) : (respond r s).item = s.item := rfl
@[simp] theorem respond_bitArray (r : Response) (s : State) : (respond r s).bitArray = s.bitArray := rfl
@[simp] theorem respond_schedule (r : Response) (s : State) : (respond r s).schedule = s.schedule := rfl
@[simp] theorem respond_response (r : Response) (s : State) : (respond r s).response = some r := rfl

/-! ### `resetBlock` -/

@[simp] theorem resetBlock_ie (s : State) : (resetBlock s).ie = false := rfl
@[simp] theorem resetBlock_done (s : State) : (resetBlock s).done = false := rfl
@[simp] theorem resetBlock_error (s : State) : (resetBlock s).error = false := rfl
@[simp] theorem resetBlock_ready (s : State) : (resetBlock s).ready = false := rfl
@[simp] theorem resetBlock_hit (s : State) : (resetBlock s).hit = false := rfl
@[simp] theorem resetBlock_viol (s : State) : (resetBlock s).viol = false := rfl
@[simp] theorem resetBlock_errCode (s : State) : (resetBlock s).errCode = 0 := rfl
@[simp] theorem resetBlock_cfgWidth (s : State) : (resetBlock s).cfgWidth = 0 := rfl
@[simp] theorem resetBlock_cfgHashCount (s : State) : (resetBlock s).cfgHashCount = 0 := rfl
@[simp] theorem resetBlock_width (s : State) : (resetBlock s).width = 0 := rfl
@[simp] theorem resetBlock_hashCount (s : State) : (resetBlock s).hashCount = 0 := rfl
@[simp] theorem resetBlock_itemCount (s : State) : (resetBlock s).itemCount = 0 := rfl
@[simp] theorem resetBlock_idx (s : State) : (resetBlock s).idx = 0 := rfl
@[simp] theorem resetBlock_curOp (s : State) : (resetBlock s).curOp = .none := rfl
@[simp] theorem resetBlock_curLen (s : State) : (resetBlock s).curLen = 0 := rfl
@[simp] theorem resetBlock_item (s : State) : (resetBlock s).item = [] := rfl
@[simp] theorem resetBlock_bitArray (s : State) : (resetBlock s).bitArray = none := rfl
@[simp] theorem resetBlock_schedule (s : State) : (resetBlock s).schedule = s.schedule := rfl
@[simp] theorem resetBlock_response (s : State) : (resetBlock s).response = s.response := rfl

/-! ### Derived readings -/

theorem busy_eq_false {s : State} : s.busy = false ↔ s.curOp = .none := by simp [State.busy]

theorem busy_eq_true {s : State} : s.busy = true ↔ s.curOp ≠ .none := by simp [State.busy]

@[simp] theorem busy_clearOutcome (s : State) : (clearOutcome s).busy = s.busy := rfl
@[simp] theorem busy_reject (e : ErrorName) (s : State) : (reject e s).busy = s.busy := rfl
@[simp] theorem busy_complete (s : State) : (complete s).busy = false := rfl
@[simp] theorem busy_violate (s : State) : (violate s).busy = s.busy := rfl
@[simp] theorem busy_respond (r : Response) (s : State) : (respond r s).busy = s.busy := rfl
@[simp] theorem busy_resetBlock (s : State) : (resetBlock s).busy = false := rfl
@[simp] theorem busy_withSchedule (s : State) (l : List Event) : { s with schedule := l }.busy = s.busy := rfl
@[simp] theorem busy_rejectedWith (code : BitVec 8) (s : State) : (rejectedWith code s).busy = s.busy := rfl

theorem busy_accept {op : Op} (h : op ≠ .none) (n : Nat) (s : State) : (accept op n s).busy = true := by
  simp [State.busy, h]

theorem rejectedWith_eq (e : ErrorName) (s : State) :
    reject e (clearOutcome s) = rejectedWith (errorCode e) s := rfl

theorem acceptedAs_eq (op : Op) (n : Nat) (s : State) :
    accept op n (clearOutcome s) = acceptedAs op (BitVec.ofNat 16 n) s := rfl

end Sys2Proof.Machine
end

