-- ==== Sys2Proof/Laws/Words.lean ====
section
/-! SUPPORT. What a command word can do (spec R106, R201, R203): once for all four commands and for illegal words. -/

namespace Sys2Proof.Machine

@[simp] theorem firstFailingCheck_clearOutcome (c : Params) (d : Option Instr) (s : State) :
    firstFailingCheck c d (clearOutcome s) = firstFailingCheck c d s := by
  rcases d with _ | i
  · rfl
  · cases i <;> rfl

/-! ### The checks of each command, read as conditions on the state -/

theorem firstFailingCheck_init (c : Params) (s : State) :
    firstFailingCheck c (some .init) s =
      if s.ready = true then some .alreadyConfigured
      else if s.cfgWidth = 0 ∨ s.cfgHashCount = 0 then some .invalidParameter
      else if 255 < s.cfgHashCount.toNat then some .tooManyHashFunctions
      else if c.maxWidth < s.cfgWidth.toNat then some .outOfMemory
      else none := rfl

theorem firstFailingCheck_insert (c : Params) (len : Nat) (s : State) :
    firstFailingCheck c (some (.insert len)) s =
      if (!s.ready) = true then some .notConfigured
      else if c.itemMax < len then some .itemTooLong
      else if s.itemCount = itemCountMax then some .countOverflow
      else none := rfl

theorem firstFailingCheck_query (c : Params) (len : Nat) (s : State) :
    firstFailingCheck c (some (.query len)) s =
      if (!s.ready) = true then some .notConfigured
      else if c.itemMax < len then some .itemTooLong
      else none := rfl

theorem firstFailingCheck_release (c : Params) (s : State) :
    firstFailingCheck c (some .release) s = if (!s.ready) = true then some .notConfigured else none := rfl

theorem check_init_accepts {c : Params} {s : State} :
    firstFailingCheck c (some .init) s = none ↔
      s.ready = false ∧ s.cfgWidth ≠ 0 ∧ s.cfgHashCount ≠ 0 ∧ s.cfgHashCount.toNat ≤ 255 ∧
        s.cfgWidth.toNat ≤ c.maxWidth := by
  rw [firstFailingCheck_init]
  split
  · next hr => exact ⟨nofun, fun h => by rw [h.1] at hr; cases hr⟩
  next hr =>
  split
  · next h0 => exact ⟨nofun, fun h => absurd h0 (not_or.mpr ⟨h.2.1, h.2.2.1⟩)⟩
  next h0 =>
  split
  · exact ⟨nofun, fun h => by omega⟩
  split
  · exact ⟨nofun, fun h => by omega⟩
  exact ⟨fun _ => ⟨by simpa using hr, fun e => h0 (.inl e), fun e => h0 (.inr e), by omega, by omega⟩, fun _ => rfl⟩

theorem check_insert_accepts {c : Params} {s : State} {len : Nat} :
    firstFailingCheck c (some (.insert len)) s = none ↔
      s.ready = true ∧ len ≤ c.itemMax ∧ s.itemCount ≠ itemCountMax := by
  rw [firstFailingCheck_insert]
  split
  · next hr => exact ⟨nofun, fun h => by simp [h.1] at hr⟩
  next hr =>
  split
  · exact ⟨nofun, fun h => by omega⟩
  split
  · next h2 => exact ⟨nofun, fun h => absurd h2 h.2.2⟩
  next h2 => exact ⟨fun _ => ⟨by simpa using hr, by omega, h2⟩, fun _ => rfl⟩

theorem check_query_accepts {c : Params} {s : State} {len : Nat} :
    firstFailingCheck c (some (.query len)) s = none ↔ s.ready = true ∧ len ≤ c.itemMax := by
  rw [firstFailingCheck_query]
  split
  · next hr => exact ⟨nofun, fun h => by simp [h.1] at hr⟩
  next hr =>
  split
  · exact ⟨nofun, fun h => by omega⟩
  exact ⟨fun _ => ⟨by simpa using hr, by omega⟩, fun _ => rfl⟩

theorem check_release_accepts {c : Params} {s : State} :
    firstFailingCheck c (some .release) s = none ↔ s.ready = true := by
  unfold firstFailingCheck
  cases hr : s.ready <;> simp

/-! ### The outcomes -/

/-- A word that fails a check: rejected with that check's code (R203). -/
theorem processWord_rejects {c : Params} {d : Option Instr} {s : State} {e : ErrorName}
    (h : firstFailingCheck c d s = some e) : processWord c d s = rejectedWith (errorCode e) s := by
  simp [processWord, h, rejectedWith_eq]

/-- A word that fails none: latched (R106). -/
theorem processWord_accepts {c : Params} {d : Option Instr} {s : State}
    (h : firstFailingCheck c d s = none) :
    processWord c d s = acceptedAs (opOf d) (BitVec.ofNat 16 (lenOf d)) s := by
  simp [processWord, h, acceptedAs_eq]

theorem commandWord_idle {c : Params} {d : Option Instr} {s : State} (h : s.busy = false) :
    commandWord c d s = processWord c d s := by
  simp [commandWord, h]

theorem commandWord_busy {c : Params} {d : Option Instr} {s : State} (h : s.busy = true) :
    commandWord c d s = violate s := by
  simp [commandWord, h]

/-- Every arm of `exec` is the command word of its instruction. -/
theorem exec_eq (i : Instr) (s : State) : exec i s = .next (commandWord .chip (some i) s) := by
  cases i <;> rfl

theorem exec_idle {i : Instr} {s : State} (h : s.busy = false) :
    exec i s = .next (processWord .chip (some i) s) := by
  rw [exec_eq, commandWord_idle h]

/-- The codes the checks can answer (R190, R201): not 0, and not the reserved 3. -/
theorem errorCode_of_check {c : Params} {d : Option Instr} {s : State} {e : ErrorName}
    (h : firstFailingCheck c d s = some e) : errorCode e ≠ 0 ∧ codeProduced (errorCode e) := by
  have : e ≠ .bitWidthOverflow := by
    rintro rfl
    rcases d with _ | i
    · cases h
    cases i
    · rw [firstFailingCheck_init] at h; (repeat' split at h) <;> cases h
    · rw [firstFailingCheck_insert] at h; (repeat' split at h) <;> cases h
    · rw [firstFailingCheck_query] at h; (repeat' split at h) <;> cases h
    · rw [firstFailingCheck_release] at h; split at h <;> cases h
  cases e <;> first | exact absurd rfl this | (refine ⟨by decide, by decide, by decide⟩)

theorem opOf_ne_none (i : Instr) : opOf (some i) ≠ .none := by
  cases i <;> simp [opOf]

/-- An accepted word leaves the block busy. -/
theorem busy_acceptedAs (i : Instr) (len : BitVec 16) (s : State) :
    (acceptedAs (opOf (some i)) len s).busy = true :=
  busy_eq_true.mpr (opOf_ne_none i)

/-- A length that passes the check is latched whole in the 16-bit `cur_len` (R107). -/
theorem latched_toNat {c : Params} {len : Nat} (h : len ≤ c.itemMax) : (BitVec.ofNat 16 len).toNat = len := by
  have := c.itemMax_le
  rw [BitVec.toNat_ofNat, Nat.mod_eq_of_lt (by omega)]

theorem itemCountMax_iff {v : BitVec 64} : v = itemCountMax ↔ v.toNat = 2 ^ 64 - 1 := by
  rw [← BitVec.toNat_inj]; rfl

end Sys2Proof.Machine
end

