-- ==== Sys2Proof/Laws/Engine.lean ====
section
/-! SUPPORT. What an engine step can do (spec R50, R123, R126, R141, R151), once for each command. -/

namespace Sys2Proof.Machine

theorem seedOf_toNat (i : BitVec 8) : (seedOf i).toNat = i.toNat := by
  have := i.isLt
  simp [seedOf]
  omega

theorem position_lt (c : Params) (x : List Byte) (i : BitVec 8) {width : Word} (h : 0 < width.toNat) :
    position c x i width < width.toNat :=
  Nat.mod_lt _ h

/-! ### Bits -/

/-- Where a bit can be set, what the set leaves in every position, and that nothing but the array changes (R72). -/
theorem bitSet_spec {s : State} {b : BitSet} {p : Nat} (hb : s.bitArray = some b) (hp : p < s.width.toNat) :
    bitSet s p = some { s with bitArray := some (bitInsert b p) } := by
  simp [bitSet, hb, hp]

theorem bitRead_spec {s : State} {b : BitSet} {p : Nat} (hb : s.bitArray = some b) (hp : p < s.width.toNat) :
    bitRead s p = some (bitListed b p) := by
  simp [bitRead, hb, hp]

theorem bitRead_eq_some {s : State} {p : Nat} {v : Bool} (h : bitRead s p = some v) :
    ∃ b, s.bitArray = some b ∧ p < s.width.toNat ∧ bitListed b p = v := by
  unfold bitRead at h
  split at h
  · exact absurd h (by simp)
  · next b hb =>
    split at h
    · next hp => exact ⟨b, hb, hp, by simpa using h⟩
    · exact absurd h (by simp)

/-- A read depends on the array and the width only. -/
theorem bitRead_congr {s t : State} (ha : t.bitArray = s.bitArray) (hw : t.width = s.width) (p : Nat) :
    bitRead t p = bitRead s p := by
  unfold bitRead
  rw [ha, hw]

/-- `BitRead` after `BitSet` (R71, R72). -/
theorem bitRead_after_set {s t : State} {b : BitSet} {p : Nat} (hb : s.bitArray = some b)
    (hp : p < s.width.toNat) (ht : t.bitArray = some (bitInsert b p)) (hw : t.width = s.width) (q : Nat) :
    bitRead t q = if q = p then some true else bitRead s q := by
  unfold bitRead
  rw [ht, hb, hw]
  simp only [bitListed_bitInsert]
  by_cases hq : q = p
  · subst hq; simp [hp]
  · simp [hq]

/-- After `BitSet(p)` the set bits are those before it and `p`. -/
theorem bitIsSet_after_set {s t : State} {b : BitSet} {p q : Nat} (hb : s.bitArray = some b)
    (hp : p < s.width.toNat) (ht : t.bitArray = some (bitInsert b p)) (hw : t.width = s.width)
    (h : q = p ∨ bitIsSet s q) : bitIsSet t q := by
  unfold bitIsSet
  rw [bitRead_after_set hb hp ht hw]
  rcases h with rfl | h
  · simp
  · split
    · rfl
    · exact h

/-! ### Steps -/

theorem engineStep_idle {c : Params} {s : State} (h : s.busy = false) : engineStep c s = .next s := by
  simp [engineStep, busy_eq_false.mp h]

theorem engineStep_init {c : Params} {s : State} (h : s.curOp = .init) :
    engineStep c s = .next (initStep s) := by
  simp [engineStep, h]

theorem engineStep_release {c : Params} {s : State} (h : s.curOp = .release) :
    engineStep c s = .next (releaseStep s) := by
  simp [engineStep, h]

theorem engineStep_insert {c : Params} {s : State} {b : BitSet} (h : s.curOp = .insert)
    (hb : s.bitArray = some b) (hp : probePosition c s < s.width.toNat) :
    engineStep c s =
      .next (insertAdvance { s with bitArray := some (bitInsert b (probePosition c s)) }) := by
  simp [engineStep, h, insertStep, bitSet_spec hb hp]

theorem engineStep_query {c : Params} {s : State} {v : Bool} (h : s.curOp = .query)
    (hv : bitRead s (probePosition c s) = some v) : engineStep c s = .next (queryAdvance v s) := by
  simp [engineStep, h, queryStep, hv]

/-- What any engine step that goes on can be. -/
theorem engineStep_cases {c : Params} {s t : State} (h : engineStep c s = .next t) :
    (s.curOp = .none ∧ t = s) ∨ (s.curOp = .init ∧ t = initStep s) ∨ (s.curOp = .release ∧ t = releaseStep s) ∨
    (s.curOp = .insert ∧ ∃ b, s.bitArray = some b ∧ probePosition c s < s.width.toNat ∧
      t = insertAdvance { s with bitArray := some (bitInsert b (probePosition c s)) }) ∨
    (s.curOp = .query ∧ ∃ v, bitRead s (probePosition c s) = some v ∧ t = queryAdvance v s) := by
  unfold engineStep at h
  split at h
  · next ho => exact .inl ⟨ho, by injection h with h; exact h.symm⟩
  · next ho => exact .inr (.inl ⟨ho, by injection h with h; exact h.symm⟩)
  · next ho => exact .inr (.inr (.inl ⟨ho, by injection h with h; exact h.symm⟩))
  · next ho =>
    refine .inr (.inr (.inr (.inl ⟨ho, ?_⟩)))
    unfold insertStep at h
    split at h
    · exact absurd h (by simp)
    · next u hu =>
      injection h with h
      unfold bitSet at hu
      split at hu
      · exact absurd hu (by simp)
      · next b hb =>
        split at hu
        · next hp =>
          injection hu with hu
          exact ⟨b, hb, hp, by rw [← h, ← hu]⟩
        · exact absurd hu (by simp)
  · next ho =>
    refine .inr (.inr (.inr (.inr ⟨ho, ?_⟩)))
    unfold queryStep at h
    split at h
    · exact absurd h (by simp)
    · next v hv =>
      injection h with h
      exact ⟨v, hv, h.symm⟩

/-- `n + 1` engine steps are one and then `n`. -/
theorem engineRun_succ {c : Params} {s t : State} (h : engineStep c s = .next t) (n : Nat) :
    engineRun c (n + 1) s = engineRun c n t := by
  simp [engineRun, h]

@[simp] theorem engineRun_zero (c : Params) (s : State) : engineRun c 0 s = .next s := rfl

@[simp] theorem engineRun_one (c : Params) (s : State) : engineRun c 1 s = engineStep c s := by
  unfold engineRun
  cases engineStep c s <;> rfl

/-- `m + n` engine steps are `m` and then `n`. -/
theorem engineRun_add {c : Params} {s t : State} {m : Nat} (h : engineRun c m s = .next t) (n : Nat) :
    engineRun c (m + n) s = engineRun c n t := by
  induction m generalizing s with
  | zero => simp at h; simp [h]
  | succ m ih =>
    rw [Nat.succ_add]
    cases hs : engineStep c s with
    | next u =>
      rw [engineRun_succ hs] at h ⊢
      exact ih h
    | fault f => simp [engineRun, hs] at h
    | refused r => simp [engineRun, hs] at h

/-- The probe count goes up by one without a wrap while probes are left (R45). -/
theorem idx_succ_toNat {s : State} (h : s.idx.toNat < s.hashCount.toNat) :
    (s.idx + 1).toNat = s.idx.toNat + 1 := by
  have := s.hashCount.isLt
  have h1 : (1 : BitVec 8).toNat = 1 := rfl
  rw [BitVec.toNat_add, h1]
  omega

/-- "n == hash_count", on numbers. -/
theorem lastProbe_iff {s : State} (h : s.idx.toNat < s.hashCount.toNat) :
    s.idx + 1 = s.hashCount ↔ s.idx.toNat + 1 = s.hashCount.toNat := by
  rw [← BitVec.toNat_inj, idx_succ_toNat h]

/-- `item_count + 1` without a wrap below the top (R141, R167). -/
theorem itemCount_succ_toNat {v : BitVec 64} (h : v ≠ itemCountMax) : (v + 1).toNat = v.toNat + 1 := by
  have := v.isLt
  have h1 : (1 : BitVec 64).toNat = 1 := rfl
  have h2 : v.toNat ≠ 2 ^ 64 - 1 := fun e => h (itemCountMax_iff.mpr e)
  rw [BitVec.toNat_add, h1]
  omega

end Sys2Proof.Machine
end

