-- ==== Sys2Proof/Laws/Bus.lean ====
section
/-! SUPPORT. What a step can do, said once (`Moves`, `step_moves`), and the transactions by offset. -/

namespace Sys2Proof.Machine

/-- `b` is `s` but for what stands outside the block: the schedule and the answer. -/
def sameBlock (s b : State) : Prop := b = { s with schedule := b.schedule, response := b.response }

theorem sameBlock_refl (s : State) : sameBlock s s := rfl

theorem sameBlock_scheduled (s : State) (rest : List Event) : sameBlock s { s with schedule := rest } := rfl

theorem sameBlock_answered (s : State) (rest : List Event) (r : Response) :
    sameBlock s (respond r { s with schedule := rest }) := rfl

theorem sameBlock_busy {s b : State} (h : sameBlock s b) : b.busy = s.busy := by
  rw [h]; rfl

/-- Everything one step can be: `b` is the state with the step taken off the schedule and the answer given. -/
inductive Moves (s t : State) : Prop where
  | engine (b : State) : sameBlock s b →
      (s.schedule = [] ∨ ∃ rest, s.schedule = .engine :: rest) → engineStep .chip b = .next t → Moves s t
  | quiet : sameBlock s t →
      (∃ off rest, s.schedule = .regRead off :: rest) ∨ (∃ off v rest, s.schedule = .regWrite off v :: rest) → Moves s t
  | reset (b : State) : sameBlock s b → resetIsNext s → t = resetBlock b → Moves s t
  | enable (b : State) (v : Word) (rest : List Event) : sameBlock s b →
      s.schedule = .regWrite 0x00C v :: rest → v.getLsbD 1 = false → t = { b with ie := v.getLsbD 0 } → Moves s t
  | clearDone (b : State) (v : Word) (rest : List Event) : sameBlock s b →
      s.schedule = .regWrite 0x010 v :: rest → v.getLsbD 1 = true → t = { b with done := false } → Moves s t
  | gated (b : State) (off : Nat) (v : Word) (rest : List Event) : sameBlock s b → s.busy = true →
      s.schedule = .regWrite off v :: rest → offsetGated .chip off → t = violate b → Moves s t
  | cfgWidth (b : State) (v : Word) : sameBlock s b → s.busy = false → t = { b with cfgWidth := v } → Moves s t
  | cfgHashCount (b : State) (v : Word) : sameBlock s b → s.busy = false →
      t = { b with cfgHashCount := v } → Moves s t
  | item (b : State) (j : Nat) (v : Word) : sameBlock s b → s.busy = false → j + 3 < Params.chip.itemMax →
      t = { b with item := writeItemWord b.item j v } → Moves s t
  | word (b : State) (w : Word) (rest : List Event) (d : Option Instr) : sameBlock s b → s.busy = false →
      s.schedule = .regWrite 0x030 w :: rest → t = processWord .chip d b → Moves s t

/-- An aligned offset in the item window is that of a whole `ITEM[j]` (R5, R37). -/
theorem item_offset {c : Params} {off : Nat} (h : offsetIsItem c off = true) (ha : off % 4 = 0) :
    ∃ j, off = 0x100 + 4 * j ∧ 4 * j + 3 < c.itemMax := by
  simp only [offsetIsItem, Bool.and_eq_true, decide_eq_true_eq] at h
  unfold itemBase at h
  have := c.itemMax_words
  exact ⟨(off - 0x100) / 4, by omega, by omega⟩

theorem offsetInvalid_false {off : Nat} : offsetInvalid off = false ↔ off % 4 = 0 ∧ off ≤ 0xFFC := by
  have : lastOffset = 0xFFC := rfl
  simp [offsetInvalid, this]

/-! ### The gated writes -/

theorem writeCfgWidth_idle {s : State} (h : s.busy = false) (v : Word) :
    writeCfgWidth v s = { s with cfgWidth := v } := if_neg (by rw [h]; exact Bool.false_ne_true)

theorem writeCfgWidth_busy {s : State} (h : s.busy = true) (v : Word) : writeCfgWidth v s = violate s := if_pos h

theorem writeCfgHashCount_idle {s : State} (h : s.busy = false) (v : Word) :
    writeCfgHashCount v s = { s with cfgHashCount := v } := if_neg (by rw [h]; exact Bool.false_ne_true)

theorem writeCfgHashCount_busy {s : State} (h : s.busy = true) (v : Word) :
    writeCfgHashCount v s = violate s := if_pos h

theorem writeItem_idle {s : State} (h : s.busy = false) (j : Nat) (v : Word) :
    writeItem j v s = { s with item := writeItemWord s.item j v } := if_neg (by rw [h]; exact Bool.false_ne_true)

theorem writeItem_busy {s : State} (h : s.busy = true) (j : Nat) (v : Word) : writeItem j v s = violate s := if_pos h

theorem writeCmd_busy {c : Params} {ex : Instr → State → Result} {s : State} (h : s.busy = true) (w : Word) :
    writeCmd c ex w s = .next (violate s) := if_pos h

/-! ### Each kind of scheduled step -/

theorem step_regRead {s : State} {off : Nat} {rest : List Event} (h : s.schedule = .regRead off :: rest) :
    step s = .next { s with schedule := rest, response := some (regReadAnswer .chip s off) } := by
  unfold step nextStep
  rw [h]
  rfl

theorem step_regWrite {s : State} {off : Nat} {v : Word} {rest : List Event}
    (h : s.schedule = .regWrite off v :: rest) :
    step s = regWrite .chip exec off v { s with schedule := rest } := by
  unfold step nextStep
  rw [h]
  rfl

theorem step_engine {s : State} {rest : List Event} (h : s.schedule = .engine :: rest) :
    step s = engineStep .chip { s with schedule := rest } := by
  unfold step nextStep
  rw [h]
  rfl

theorem step_unscheduled {s : State} (h : s.schedule = []) : step s = engineStep .chip s := by
  unfold step nextStep
  rw [h]

theorem step_reset {s : State} {rest : List Event} (h : s.schedule = .reset :: rest) :
    step s = .next (resetBlock { s with schedule := rest }) := by
  unfold step nextStep
  rw [h]
  rfl

/-- A write to `CMD` (R75): what `writeCmd` does with the answer `OKAY`. -/
theorem step_command {s : State} {w : Word} {rest : List Event} (h : s.schedule = .regWrite 0x030 w :: rest) :
    step s = writeCmd .chip exec w { s with schedule := rest, response := some (.write .okay) } :=
  step_regWrite h

theorem offsetIsItem_at {c : Params} {j : Nat} (hj : 4 * j < c.itemMax) :
    offsetIsItem c (0x100 + 4 * j) = true := by
  simp only [offsetIsItem, Bool.and_eq_true, decide_eq_true_eq]
  unfold itemBase
  omega

/-- The offset of an `ITEM[j]` is that of no other register. -/
theorem item_offset_only {c : Params} {j : Nat} (hj : 4 * j < c.itemMax) :
    offsetInvalid (0x100 + 4 * j) = false ∧ offsetReadOnly (0x100 + 4 * j) = false ∧
      ∀ k, k < 0x100 → 0x100 + 4 * j ≠ k := by
  have := c.itemMax_le
  have := c.itemMax_words
  refine ⟨offsetInvalid_false.mpr ⟨by omega, by omega⟩, ?_, fun k hk => by omega⟩
  rw [Bool.eq_false_iff]
  intro h
  simp [offsetReadOnly, offId, offCapWidth, offCapItem, offErr, offWidth, offHashCount, offItemCountLo,
    offItemCountHi, offProbes] at h
  omega

/-- A write to `ITEM[j]` (R37, R75). -/
theorem regWrite_item {c : Params} {ex : Instr → State → Result} {j : Nat} (hj : 4 * j < c.itemMax) (v : Word)
    (s : State) :
    regWrite c ex (0x100 + 4 * j) v s = .next (writeItem (4 * j) v (respond (.write .okay) s)) := by
  obtain ⟨hi, hr, hn⟩ := item_offset_only hj
  unfold regWrite
  rw [hi, hr, if_neg (by simp), if_neg (by simp), if_neg (hn offCtrl (by decide)), if_neg (hn offStatus (by decide)),
    if_neg (hn offCfgWidth (by decide)), if_neg (hn offCfgHashCount (by decide)), if_neg (hn offCmd (by decide)),
    if_pos (offsetIsItem_at hj)]
  simp [itemBase]

/-- A read of `ITEM[j]` (R37, R74). -/
theorem regReadAnswer_item {c : Params} {j : Nat} (hj : 4 * j < c.itemMax) (s : State) :
    regReadAnswer c s (0x100 + 4 * j) = .read .okay (readItemWord s.item (4 * j)) := by
  obtain ⟨hi, _, hn⟩ := item_offset_only hj
  unfold regReadAnswer controlRegister
  rw [hi, if_neg (by simp), if_neg (hn offId (by decide)), if_neg (hn offCapWidth (by decide)),
    if_neg (hn offCapItem (by decide)), if_neg (hn offCtrl (by decide)), if_neg (hn offStatus (by decide)),
    if_neg (hn offErr (by decide)), if_neg (hn offCfgWidth (by decide)), if_neg (hn offCfgHashCount (by decide)),
    if_neg (hn offWidth (by decide)), if_neg (hn offHashCount (by decide)), if_neg (hn offItemCountLo (by decide)),
    if_neg (hn offItemCountHi (by decide)), if_neg (hn offCmd (by decide)), if_neg (hn offProbes (by decide))]
  simp [offsetIsItem_at hj, itemBase]

/-- A step is one of the moves. -/
theorem step_moves {s t : State} (h : step s = .next t) : Moves s t := by
  unfold step nextStep at h
  cases hs : s.schedule with
  | nil =>
    rw [hs] at h
    exact .engine s (sameBlock_refl s) (.inl hs) h
  | cons e rest =>
    rw [hs] at h
    cases e with
    | engine => exact .engine _ (sameBlock_scheduled s rest) (.inr ⟨rest, hs⟩) h
    | reset =>
      injection h with h
      exact .reset _ (sameBlock_scheduled s rest) (.inl ⟨rest, hs⟩) h.symm
    | regRead off =>
      injection h with h
      subst h
      exact .quiet (sameBlock_answered s rest _) (.inl ⟨off, rest, hs⟩)
    | regWrite off v =>
      have hq : ∀ r, t = respond r { s with schedule := rest } → Moves s t := fun r e => by
        subst e; exact .quiet (sameBlock_answered s rest r) (.inr ⟨off, v, rest, hs⟩)
      have hb := sameBlock_answered s rest (.write .okay)
      simp only [runEvent] at h
      unfold regWrite at h
      split at h
      · injection h with h; exact hq _ h.symm
      next hi =>
      have hi := offsetInvalid_false.mp (by simpa using hi)
      split at h
      · injection h with h; exact hq _ h.symm
      split at h
      · next ho =>
        subst ho
        injection h with h
        unfold writeCtrl at h
        split at h
        · next hv => exact .reset _ hb (.inr ⟨v, rest, hs, hv⟩) h.symm
        · next hv => exact .enable _ v rest hb hs (by simpa using hv) h.symm
      split at h
      · next ho =>
        subst ho
        injection h with h
        unfold writeStatus at h
        split at h
        · next hv => exact .clearDone _ v rest hb hs hv h.symm
        · exact hq _ h.symm
      split at h
      · next ho =>
        subst ho
        injection h with h
        unfold writeCfgWidth at h
        split at h
        · next hbusy => exact .gated _ _ v rest hb hbusy hs (.inl rfl) h.symm
        · next hbusy => exact .cfgWidth _ v hb (by simpa using hbusy) h.symm
      split at h
      · next ho =>
        subst ho
        injection h with h
        unfold writeCfgHashCount at h
        split at h
        · next hbusy => exact .gated _ _ v rest hb hbusy hs (.inr (.inl rfl)) h.symm
        · next hbusy => exact .cfgHashCount _ v hb (by simpa using hbusy) h.symm
      split at h
      · next ho =>
        subst ho
        unfold writeCmd at h
        split at h
        · next hbusy =>
          injection h with h
          exact .gated _ _ v rest hb hbusy hs (.inr (.inr (.inl rfl))) h.symm
        · next hbusy =>
          have hidle : s.busy = false := by simpa using hbusy
          split at h
          · next i _ =>
            rw [exec_idle (s := respond (.write .okay) { s with schedule := rest }) hidle] at h
            injection h with h
            exact .word _ v rest (some i) hb hidle hs h.symm
          · injection h with h
            exact .word _ v rest none hb hidle hs (by
              rw [← h, illegalWord, commandWord_idle (s := respond (.write .okay) { s with schedule := rest }) hidle])
      split at h
      · next ho =>
        injection h with h
        obtain ⟨j, rfl, hj⟩ := item_offset ho hi.1
        unfold writeItem at h
        split at h
        · next hbusy => exact .gated _ _ v rest hb hbusy hs (.inr (.inr (.inr ⟨j, rfl, by omega⟩))) h.symm
        · next hbusy =>
          refine .item _ (4 * j) v hb (by simpa using hbusy) hj ?_
          rw [← h]
          simp [itemBase]
      · injection h with h; exact hq _ h.symm

end Sys2Proof.Machine
end

