-- ==== Sys2Proof/Laws/Invariant.lean ====
section
/-! SUPPORT. Each operation keeps the invariant (spec R21), one lemma per operation. -/

namespace Sys2Proof.Machine

variable {c : Params} {s : State}

/-- The invariant is about the block, not about what stands outside it. -/
theorem Inv.outside {t : State} (h : Inv c s) (hb : sameBlock s t) : Inv c t := by
  rw [hb]
  exact { h with }

theorem not_probing_of_idle (h : s.busy = false) : ¬ s.probing := by
  have := busy_eq_false.mp h
  simp [State.probing, this]

theorem busy_of_probing (h : s.probing) : s.busy = true := by
  rcases h with h | h <;> simp [State.busy, h]

theorem Inv.idle_len (h : Inv c s) (hi : s.busy = false) : s.curLen = 0 := h.lenZero (not_probing_of_idle hi)

/-- A probe of a state that meets the invariant falls inside the array (R161). -/
theorem Inv.probe_inside (h : Inv c s) (hp : s.probing) : probePosition c s < s.width.toNat :=
  position_lt c _ _ (h.readyWidth (h.needsFilter (.inl hp))).1

theorem Inv.array (h : Inv c s) (hp : s.ready = true) : ∃ b, s.bitArray = some b := by
  obtain ⟨b, hb, _⟩ := h.arrayInUse hp
  exact ⟨b, hb⟩

theorem inv_reset (s : State) : Inv c (resetBlock s) where
  readyWidth := nofun
  readyCount := nofun
  unready _ := ⟨rfl, rfl, rfl⟩
  arrayInUse := nofun
  noArray _ := rfl
  probesMade := Nat.le_refl _
  probeLeft h := by rcases h with h | h <;> cases h
  needsFilter h := by rcases h with (h | h) | h <;> cases h
  initUnready := nofun
  initStaged := nofun
  lifecycleIdx h := by rcases h with h | h <;> cases h
  lenFits := Nat.zero_le _
  lenZero _ := rfl
  errorCoded := by simp
  codeKnown := ⟨by simp, by simp⟩
  busyQuiet := nofun
  hitMeans := nofun
  countRoom := nofun
  itemWf := rfl
  itemBounds _ h := by simp at h
  probesSet h := by rcases h with h | h <;> cases h

/-! ### Host writes -/

theorem Inv.violate (h : Inv c s) : Inv c (violate s) := { h with }

theorem Inv.enable (h : Inv c s) (b : Bool) : Inv c { s with ie := b } := { h with }

theorem Inv.clearDone (h : Inv c s) : Inv c { s with done := false } :=
  { h with busyQuiet := fun hb => ⟨rfl, (h.busyQuiet hb).2⟩ }

theorem Inv.cfgWidth (h : Inv c s) (hi : s.busy = false) (v : Word) : Inv c { s with cfgWidth := v } :=
  { h with initStaged := fun ho => by rw [show s.curOp = .none from busy_eq_false.mp hi] at ho; cases ho }

theorem Inv.cfgHashCount (h : Inv c s) (hi : s.busy = false) (v : Word) : Inv c { s with cfgHashCount := v } :=
  { h with initStaged := fun ho => by rw [show s.curOp = .none from busy_eq_false.mp hi] at ho; cases ho }

theorem Inv.item (h : Inv c s) (hi : s.busy = false) {j : Nat} (hj : j + 3 < c.itemMax) (v : Word) :
    Inv c { s with item := writeItemWord s.item j v } :=
  { h with
    itemWf := writeItemWord_wf h.itemWf j v
    itemBounds := indexesBelow_writeItemWord v h.itemBounds hj
    probesSet := fun hp => absurd hp (not_probing_of_idle hi) }

/-! ### Command words -/

theorem Inv.rejected (h : Inv c s) (hi : s.busy = false) {code : BitVec 8} (h0 : code ≠ 0)
    (hk : codeProduced code) : Inv c (rejectedWith code s) :=
  { h with
    errorCoded := ⟨fun _ => h0, fun _ => rfl⟩
    codeKnown := hk
    busyQuiet := fun hb => by
      have hb' : s.busy = true := hb
      rw [hi] at hb'; cases hb'
    hitMeans := nofun }

theorem Inv.accepted (h : Inv c s) {i : Instr}
    (hc : firstFailingCheck c (some i) s = none) :
    Inv c (acceptedAs (opOf (some i)) (BitVec.ofNat 16 (lenOf (some i))) s) := by
  have quiet : ∀ op len, (acceptedAs op len s).busy = true →
      (acceptedAs op len s).done = false ∧ (acceptedAs op len s).error = false ∧
        (acceptedAs op len s).hit = false := fun _ _ _ => ⟨rfl, rfl, rfl⟩
  have hit : ∀ op len, (acceptedAs op len s).hit = true →
      (acceptedAs op len s).ready = true ∧ (acceptedAs op len s).idx = (acceptedAs op len s).hashCount :=
    fun _ _ h => by cases h
  have code : codeProduced 0 := ⟨by simp, by simp⟩
  have coded : (false = true ↔ (0 : BitVec 8) ≠ 0) := by simp
  cases i with
  | init =>
    have hc := check_init_accepts.mp hc
    exact
      { h with
        probesMade := Nat.zero_le _
        probeLeft := fun hp => by rcases hp with hp | hp <;> cases hp
        needsFilter := fun hp => by rcases hp with (hp | hp) | hp <;> cases hp
        initUnready := fun _ => hc.1
        initStaged := fun _ => ⟨hc.2.1, hc.2.2.2.2, hc.2.2.1, hc.2.2.2.1⟩
        lifecycleIdx := fun _ => rfl
        lenFits := Nat.zero_le _
        lenZero := fun _ => rfl
        errorCoded := coded
        codeKnown := code
        busyQuiet := quiet _ _
        hitMeans := hit _ _
        countRoom := nofun
        probesSet := fun hp => by rcases hp with hp | hp <;> cases hp }
  | insert len =>
    have hc := check_insert_accepts.mp hc
    exact
      { h with
        probesMade := Nat.zero_le _
        probeLeft := fun _ => h.readyCount hc.1
        needsFilter := fun _ => hc.1
        initUnready := nofun
        initStaged := nofun
        lifecycleIdx := fun _ => rfl
        lenFits := by
          show (BitVec.ofNat 16 len).toNat ≤ c.itemMax
          rw [latched_toNat hc.2.1]; exact hc.2.1
        lenZero := fun hp => absurd (.inl rfl) hp
        errorCoded := coded
        codeKnown := code
        busyQuiet := quiet _ _
        hitMeans := hit _ _
        countRoom := fun _ => hc.2.2
        probesSet := fun _ i hi => absurd hi (Nat.not_lt_zero _) }
  | query len =>
    have hc := check_query_accepts.mp hc
    exact
      { h with
        probesMade := Nat.zero_le _
        probeLeft := fun _ => h.readyCount hc.1
        needsFilter := fun _ => hc.1
        initUnready := nofun
        initStaged := nofun
        lifecycleIdx := fun _ => rfl
        lenFits := by
          show (BitVec.ofNat 16 len).toNat ≤ c.itemMax
          rw [latched_toNat hc.2]; exact hc.2
        lenZero := fun hp => absurd (.inr rfl) hp
        errorCoded := coded
        codeKnown := code
        busyQuiet := quiet _ _
        hitMeans := hit _ _
        countRoom := nofun
        probesSet := fun _ i hi => absurd hi (Nat.not_lt_zero _) }
  | release =>
    have hc := check_release_accepts.mp hc
    exact
      { h with
        probesMade := Nat.zero_le _
        probeLeft := fun hp => by rcases hp with hp | hp <;> cases hp
        needsFilter := fun _ => hc
        initUnready := nofun
        initStaged := nofun
        lifecycleIdx := fun _ => rfl
        lenFits := Nat.zero_le _
        lenZero := fun _ => rfl
        errorCoded := coded
        codeKnown := code
        busyQuiet := quiet _ _
        hitMeans := hit _ _
        countRoom := nofun
        probesSet := fun hp => by rcases hp with hp | hp <;> cases hp }

/-- Processing a command word while idle keeps the invariant. -/
theorem Inv.processWord (h : Inv c s) (hi : s.busy = false) (d : Option Instr) : Inv c (processWord c d s) := by
  cases hc : firstFailingCheck c d s with
  | some e =>
    rw [processWord_rejects hc]
    exact h.rejected hi (errorCode_of_check hc).1 (errorCode_of_check hc).2
  | none =>
    rcases d with _ | i
    · cases hc
    · rw [processWord_accepts hc]
      exact h.accepted hc

/-! ### Engine steps -/

theorem Inv.initStep (h : Inv c s) (ho : s.curOp = .init) : Inv c (initStep s) := by
  obtain ⟨hw0, hw, hk0, hk⟩ := h.initStaged ho
  have hidx := h.lifecycleIdx (.inl ho)
  have hbusy := h.busyQuiet (by simp [State.busy, ho])
  have count : (s.cfgHashCount.setWidth 8).toNat = s.cfgHashCount.toNat := by
    rw [BitVec.toNat_setWidth, Nat.mod_eq_of_lt (by omega)]
  have pos : ∀ v : Word, v ≠ 0 → 1 ≤ v.toNat := fun v hv => Nat.pos_of_ne_zero fun e =>
    hv (BitVec.eq_of_toNat_eq e)
  exact
    { h with
      readyWidth := fun _ => ⟨pos _ hw0, hw⟩
      readyCount := fun _ => by
        show 1 ≤ (s.cfgHashCount.setWidth 8).toNat
        rw [count]; exact pos _ hk0
      unready := nofun
      arrayInUse := fun _ => ⟨[], rfl, rfl, fun p hp => by simp at hp⟩
      noArray := nofun
      probesMade := by
        show s.idx.toNat ≤ _
        rw [hidx]; exact Nat.zero_le _
      probeLeft := fun hp => by rcases hp with hp | hp <;> cases hp
      needsFilter := fun _ => rfl
      initUnready := nofun
      initStaged := nofun
      lifecycleIdx := fun hp => by rcases hp with hp | hp <;> cases hp
      lenFits := Nat.zero_le _
      lenZero := fun _ => rfl
      busyQuiet := nofun
      hitMeans := fun hh => by
        have hh' : s.hit = true := hh
        rw [hbusy.2.2] at hh'; cases hh'
      countRoom := nofun
      probesSet := fun hp => by rcases hp with hp | hp <;> cases hp }

theorem Inv.releaseStep (h : Inv c s) (ho : s.curOp = .release) : Inv c (releaseStep s) := by
  have hidx := h.lifecycleIdx (.inr ho)
  have hbusy := h.busyQuiet (by simp [State.busy, ho])
  exact
    { h with
      readyWidth := nofun
      readyCount := nofun
      unready := fun _ => ⟨rfl, rfl, rfl⟩
      arrayInUse := nofun
      noArray := fun _ => rfl
      probesMade := by
        show s.idx.toNat ≤ _
        rw [hidx]; exact Nat.zero_le _
      probeLeft := fun hp => by rcases hp with hp | hp <;> cases hp
      needsFilter := fun hp => by rcases hp with (hp | hp) | hp <;> cases hp
      initUnready := nofun
      initStaged := nofun
      lifecycleIdx := fun hp => by rcases hp with hp | hp <;> cases hp
      lenFits := Nat.zero_le _
      lenZero := fun _ => rfl
      busyQuiet := nofun
      hitMeans := fun hh => by
        have hh' : s.hit = true := hh
        rw [hbusy.2.2] at hh'; cases hh'
      countRoom := nofun
      probesSet := fun hp => by rcases hp with hp | hp <;> cases hp }

/-- The probe the step makes is probe number `idx` (R47). -/
theorem probePosition_eq (c : Params) (s : State) :
    probePosition c s = position c (itemBytes s s.curLen.toNat) (BitVec.ofNat 8 s.idx.toNat) s.width := by
  simp [probePosition]

/-- After a probe that found or left a 1, the probes made so far are all set. -/
theorem probes_below_succ {P : Nat → Prop} {n : Nat} (h : ∀ i, i < n → P i) (hn : P n) : ∀ i, i < n + 1 → P i :=
  fun i hi => if e : i = n then e ▸ hn else h i (by omega)

theorem Inv.insertStep (h : Inv c s) (ho : s.curOp = .insert) {b : BitSet} (hb : s.bitArray = some b) :
    Inv c (insertAdvance { s with bitArray := some (bitInsert b (probePosition c s)) }) := by
  have hp : s.probing := .inl ho
  have hready := h.needsFilter (.inl hp)
  have hlt := h.probe_inside hp
  have hbusy := h.busyQuiet (busy_of_probing hp)
  have hleft := h.probeLeft hp
  obtain ⟨b', hb', hwf, hin⟩ := h.arrayInUse hready
  obtain rfl : b = b' := by rw [hb] at hb'; injection hb'
  have array : ∀ t : State, t.bitArray = some (bitInsert b (probePosition c s)) → t.width = s.width →
      t.ready = true → ∃ b2, t.bitArray = some b2 ∧ BitSet.wf b2 = true ∧ ∀ p ∈ b2, p < t.width.toNat := by
    intro t ht hw _
    refine ⟨_, ht, bitInsert_wf hwf _, fun p hpm => ?_⟩
    rw [hw]
    rcases (mem_bitInsert b _ p).mp hpm with rfl | hm
    · exact hlt
    · exact hin p hm
  unfold insertAdvance
  split
  · next hlast =>
    exact
      { h with
        arrayInUse := array _ rfl rfl
        noArray := fun e => by
          have e' : s.ready = false := e
          rw [hready] at e'; cases e'
        unready := fun e => by
          have e' : s.ready = false := e
          rw [hready] at e'; cases e'
        probesMade := by
          show (s.idx + 1).toNat ≤ s.hashCount.toNat
          rw [idx_succ_toNat hleft]; omega
        probeLeft := fun hp => by rcases hp with hp | hp <;> cases hp
        needsFilter := fun _ => hready
        initUnready := nofun
        initStaged := nofun
        lifecycleIdx := fun hp => by rcases hp with hp | hp <;> cases hp
        lenFits := Nat.zero_le _
        lenZero := fun _ => rfl
        busyQuiet := nofun
        hitMeans := fun hh => by
          have hh' : s.hit = true := hh
          rw [hbusy.2.2] at hh'; cases hh'
        countRoom := nofun
        probesSet := fun hp => by rcases hp with hp | hp <;> cases hp }
  · next hlast =>
    have hne : s.idx.toNat + 1 ≠ s.hashCount.toNat := fun e => hlast ((lastProbe_iff hleft).mpr e)
    exact
      { h with
        arrayInUse := array _ rfl rfl
        noArray := fun e => by
          have e' : s.ready = false := e
          rw [hready] at e'; cases e'
        probesMade := by
          show (s.idx + 1).toNat ≤ s.hashCount.toNat
          rw [idx_succ_toNat hleft]; omega
        probeLeft := fun _ => by
          show (s.idx + 1).toNat < s.hashCount.toNat
          rw [idx_succ_toNat hleft]; omega
        lifecycleIdx := fun e => by
          have e' : s.curOp = .init ∨ s.curOp = .release := e
          rw [ho] at e'; rcases e' with e' | e' <;> cases e'
        hitMeans := fun hh => by
          have hh' : s.hit = true := hh
          rw [hbusy.2.2] at hh'; cases hh'
        probesSet := fun _ => by
          show ∀ i : Nat, i < (s.idx + 1).toNat → _
          rw [idx_succ_toNat hleft]
          refine probes_below_succ (fun i hi => ?_) ?_
          · exact bitIsSet_after_set hb hlt rfl rfl (.inr (h.probesSet hp i hi))
          · exact bitIsSet_after_set hb hlt rfl rfl (.inl (probePosition_eq c s).symm) }

theorem Inv.queryStep (h : Inv c s) (ho : s.curOp = .query) {v : Bool}
    (hv : bitRead s (probePosition c s) = some v) : Inv c (queryAdvance v s) := by
  have hp : s.probing := .inr ho
  have hready := h.needsFilter (.inl hp)
  have hbusy := h.busyQuiet (busy_of_probing hp)
  have hleft := h.probeLeft hp
  have made : (s.idx + 1).toNat ≤ s.hashCount.toNat := by rw [idx_succ_toNat hleft]; omega
  have done : ∀ hitv : Bool, (hitv = true → s.idx + 1 = s.hashCount) →
      Inv c (complete { s with idx := s.idx + 1, hit := hitv }) := fun hitv hh =>
    { h with
      probesMade := made
      probeLeft := fun hp => by rcases hp with hp | hp <;> cases hp
      needsFilter := fun _ => hready
      initUnready := nofun
      initStaged := nofun
      lifecycleIdx := fun hp => by rcases hp with hp | hp <;> cases hp
      lenFits := Nat.zero_le _
      lenZero := fun _ => rfl
      busyQuiet := nofun
      hitMeans := fun e => ⟨hready, hh e⟩
      countRoom := nofun
      probesSet := fun hp => by rcases hp with hp | hp <;> cases hp }
  unfold queryAdvance
  split
  · exact done false nofun
  next hb =>
  split
  · next hlast => exact done true fun _ => hlast
  · next hlast =>
    have hne : s.idx.toNat + 1 ≠ s.hashCount.toNat := fun e => hlast ((lastProbe_iff hleft).mpr e)
    have hv' : v = true := by simpa using hb
    exact
      { h with
        probesMade := made
        probeLeft := fun _ => by
          show (s.idx + 1).toNat < s.hashCount.toNat
          rw [idx_succ_toNat hleft]; omega
        lifecycleIdx := fun e => by
          have e' : s.curOp = .init ∨ s.curOp = .release := e
          rw [ho] at e'; rcases e' with e' | e' <;> cases e'
        hitMeans := fun hh => by
          have hh' : s.hit = true := hh
          rw [hbusy.2.2] at hh'; cases hh'
        probesSet := fun _ => by
          show ∀ i : Nat, i < (s.idx + 1).toNat → _
          rw [idx_succ_toNat hleft]
          refine probes_below_succ (fun i hi => h.probesSet hp i hi) ?_
          rw [hv', probePosition_eq c s] at hv
          exact hv }

/-- An engine step keeps the invariant. -/
theorem Inv.engineStep {t : State} (h : Inv c s) (he : engineStep c s = .next t) : Inv c t := by
  rcases engineStep_cases he with ⟨_, rfl⟩ | ⟨ho, rfl⟩ | ⟨ho, rfl⟩ | ⟨ho, b, hb, _, rfl⟩ | ⟨ho, v, hv, rfl⟩
  · exact h
  · exact h.initStep ho
  · exact h.releaseStep ho
  · exact h.insertStep ho hb
  · exact h.queryStep ho hv

/-- An engine step of a state that meets the invariant goes on (R50). -/
theorem Inv.engine_goes_on (h : Inv c s) : ∃ t, Machine.engineStep c s = .next t := by
  cases ho : s.curOp with
  | none => exact ⟨s, engineStep_idle (busy_eq_false.mpr ho)⟩
  | init => exact ⟨_, engineStep_init ho⟩
  | release => exact ⟨_, engineStep_release ho⟩
  | insert =>
    obtain ⟨b, hb⟩ := h.array (h.needsFilter (.inl (.inl ho)))
    exact ⟨_, engineStep_insert ho hb (h.probe_inside (.inl ho))⟩
  | query =>
    obtain ⟨b, hb⟩ := h.array (h.needsFilter (.inl (.inr ho)))
    exact ⟨_, engineStep_query ho (bitRead_spec hb (h.probe_inside (.inr ho)))⟩

/-- Several engine steps keep it too. -/
theorem Inv.engineRun {t : State} {n : Nat} (h : Inv c s) (he : engineRun c n s = .next t) : Inv c t := by
  induction n generalizing s with
  | zero => simp at he; exact he ▸ h
  | succ n ih =>
    obtain ⟨u, hu⟩ := h.engine_goes_on
    rw [engineRun_succ hu] at he
    exact ih (h.engineStep hu) he

end Sys2Proof.Machine
end

