-- ==== Sys2Proof/Laws/Execution.lean ====
section
/-! SUPPORT. Executions: a step does not depend on what the schedule holds after it, so every finite beginning of an
execution is a run of `step`; and what an offered step can do while a command is in progress. -/

namespace Sys2Proof.Machine

/-! ### The rest of the schedule takes no part in a step -/

@[simp] theorem withSchedule_busy (l : List Event) (s : State) : (withSchedule l s).busy = s.busy := rfl

theorem insertAdvance_withSchedule (s : State) (l : List Event) :
    insertAdvance (withSchedule l s) = withSchedule l (insertAdvance s) := by
  unfold insertAdvance
  show (if s.idx + 1 = s.hashCount then _ else _) = withSchedule l (if s.idx + 1 = s.hashCount then _ else _)
  split <;> rfl

theorem queryAdvance_withSchedule (v : Bool) (s : State) (l : List Event) :
    queryAdvance v (withSchedule l s) = withSchedule l (queryAdvance v s) := by
  cases v
  · rfl
  unfold queryAdvance
  show (if s.idx + 1 = s.hashCount then _ else _) = withSchedule l (if s.idx + 1 = s.hashCount then _ else _)
  split <;> rfl

theorem engineStep_withSchedule {c : Params} {s t : State} (h : engineStep c s = .next t) (l : List Event) :
    engineStep c (withSchedule l s) = .next (withSchedule l t) := by
  rcases engineStep_cases h with ⟨ho, rfl⟩ | ⟨ho, rfl⟩ | ⟨ho, rfl⟩ | ⟨ho, b, hb, hlt, rfl⟩ | ⟨ho, v, hv, rfl⟩
  · exact engineStep_idle (busy_eq_false.mpr ho)
  · exact engineStep_init ho
  · exact engineStep_release ho
  · exact (engineStep_insert (s := withSchedule l s) ho hb hlt).trans (congrArg _ (insertAdvance_withSchedule { s with bitArray := some (bitInsert b (probePosition c s)) } l))
  · exact (engineStep_query (s := withSchedule l s) ho hv).trans (congrArg _ (queryAdvance_withSchedule v s l))

theorem processWord_withSchedule (c : Params) (d : Option Instr) (s : State) (l : List Event) :
    processWord c d (withSchedule l s) = withSchedule l (processWord c d s) := by
  have e : firstFailingCheck c d (clearOutcome (withSchedule l s)) = firstFailingCheck c d (clearOutcome s) := by
    rcases d with _ | i
    · rfl
    · cases i <;> rfl
  unfold processWord
  rw [e]
  split <;> rfl

theorem writeCmd_withSchedule {w : Word} {s t : State} (h : writeCmd .chip exec w s = .next t) (l : List Event) :
    writeCmd .chip exec w (withSchedule l s) = .next (withSchedule l t) := by
  unfold writeCmd at h ⊢
  rw [withSchedule_busy]
  split at h
  · next hb => rw [if_pos hb]; injection h with h; rw [← h]; rfl
  next hb =>
  have hb : s.busy = false := by simpa using hb
  rw [if_neg (by simp [hb])]
  split at h
  · rw [exec_idle hb] at h
    injection h with h
    rw [exec_idle (s := withSchedule l s) hb, processWord_withSchedule, h]
  · injection h with h
    rw [illegalWord, commandWord_idle (s := withSchedule l s) hb, processWord_withSchedule, ← h, illegalWord,
      commandWord_idle hb]

theorem regWrite_withSchedule {off : Nat} {v : Word} {s t : State} (h : regWrite .chip exec off v s = .next t)
    (l : List Event) : regWrite .chip exec off v (withSchedule l s) = .next (withSchedule l t) := by
  unfold regWrite at h ⊢
  split at h
  · next g => rw [if_pos g]; injection h with h; subst h; rfl
  next g =>
  rw [if_neg g]
  split at h
  · next g => rw [if_pos g]; injection h with h; subst h; rfl
  next g =>
  rw [if_neg g]
  split at h
  · next g => rw [if_pos g]; injection h with h; subst h; unfold writeCtrl; split <;> rfl
  next g =>
  rw [if_neg g]
  split at h
  · next g => rw [if_pos g]; injection h with h; subst h; unfold writeStatus; split <;> rfl
  next g =>
  rw [if_neg g]
  split at h
  · next g =>
    rw [if_pos g]; injection h with h; subst h
    unfold writeCfgWidth
    show Host.Outcome.next (if s.busy then _ else _) = .next (withSchedule l (if s.busy then _ else _))
    split <;> rfl
  next g =>
  rw [if_neg g]
  split at h
  · next g =>
    rw [if_pos g]; injection h with h; subst h
    unfold writeCfgHashCount
    show Host.Outcome.next (if s.busy then _ else _) = .next (withSchedule l (if s.busy then _ else _))
    split <;> rfl
  next g =>
  rw [if_neg g]
  split at h
  · next g => rw [if_pos g]; exact writeCmd_withSchedule h l
  next g =>
  rw [if_neg g]
  split at h
  · next g =>
    rw [if_pos g]; injection h with h; subst h
    unfold writeItem
    show Host.Outcome.next (if s.busy then _ else _) = .next (withSchedule l (if s.busy then _ else _))
    split <;> rfl
  next g =>
  rw [if_neg g]
  injection h with h; subst h; rfl

/-- A step that goes on with `e` alone on the schedule goes on alike whatever stands after it. -/
theorem step_offer {e : Event} {s t : State} (h : step (offer e s) = .next t) (rest : List Event) :
    step (withSchedule (e :: rest) s) = .next (withSchedule rest t) := by
  cases e with
  | regRead off =>
    rw [step_regRead (rest := []) rfl] at h
    injection h with h
    rw [step_regRead rfl, ← h]
    rfl
  | regWrite off v =>
    rw [step_regWrite (rest := []) rfl] at h
    exact (step_regWrite rfl).trans (regWrite_withSchedule h rest)
  | engine =>
    rw [step_engine (rest := []) rfl] at h
    exact (step_engine rfl).trans (engineStep_withSchedule h rest)
  | reset =>
    rw [step_reset (rest := []) rfl] at h
    injection h with h
    rw [step_reset rfl, ← h]
    rfl

/-! ### Finite beginnings -/

theorem stepRun_succ {s t : State} (h : step s = .next t) (n : Nat) : stepRun (n + 1) s = stepRun n t := by
  simp [stepRun, h]

theorem stepRun_add {s t : State} {m : Nat} (h : stepRun m s = .next t) (n : Nat) :
    stepRun (m + n) s = stepRun n t := by
  induction m generalizing s with
  | zero =>
    injection h with h
    rw [h, Nat.zero_add]
  | succ m ih =>
    rw [Nat.succ_add]
    cases hs : step s with
    | next u =>
      rw [stepRun_succ hs] at h ⊢
      exact ih h
    | fault f => simp [stepRun, hs] at h
    | refused r => simp [stepRun, hs] at h

/-- The first `n` places of an execution are a run of the machine from its first state, with their steps scheduled. -/
theorem execution_beginning {events : Nat → Option Event} {states : Nat → State} (h : Execution events states) (n : Nat)
    (rest : List Event) :
    stepRun (scheduleOf events n).length (withSchedule (scheduleOf events n ++ rest) (states 0)) =
      .next (withSchedule rest (states n)) := by
  induction n generalizing rest with
  | zero => rfl
  | succ n ih =>
    have hm := h n
    unfold scheduleOf
    cases he : events n with
    | none =>
      rw [he] at hm
      rw [show states (n + 1) = states n from hm, Option.toList_none, List.append_nil]
      exact ih rest
    | some e =>
      rw [he] at hm
      rw [Option.toList_some, List.append_assoc, List.length_append]
      exact (stepRun_add (ih (e :: rest)) 1).trans (stepRun_succ (step_offer hm.2 rest) 0)

/-! ### A command in progress -/

/-- While a command is in progress, a place of an execution ends it, or keeps it, with one probe more after an engine step
and as it was after anything else. -/
theorem Inv.moves_busy {e : Option Event} {s t : State} (h : Inv .chip s) (hb : s.busy = true) (hm : moves e s t) :
    t.busy = false ∨ (t.curOp = s.curOp ∧ t.hashCount = s.hashCount ∧ s.probing ∧
      e = some .engine ∧ t.idx.toNat = s.idx.toNat + 1) ∨
    (e ≠ some .engine ∧ t.curOp = s.curOp ∧ t.hashCount = s.hashCount ∧ t.idx = s.idx) := by
  cases e with
  | none => exact .inr (.inr ⟨nofun, by rw [show t = s from hm]; exact ⟨rfl, rfl, rfl⟩⟩)
  | some e =>
  have hst := hm.2
  have kept : ∀ b : State, sameBlock (offer e s) b → b.curOp = s.curOp ∧ b.hashCount = s.hashCount ∧ b.idx = s.idx :=
    fun b hs => by rw [hs]; exact ⟨rfl, rfl, rfl⟩
  have idle : (offer e s).busy = false → t.busy = false := fun hi => by
    rw [show s.busy = false from hi] at hb; cases hb
  cases step_moves hst with
  | engine b hs hsch he =>
    have e' : e = .engine := by
      rcases hsch with hsch | ⟨_, hsch⟩
      · cases hsch
      · injection hsch
    obtain ⟨k1, k2, k3⟩ := kept b hs
    have hib := (h.outside (sameBlock_scheduled s [e])).outside hs
    rcases engineStep_cases he with ⟨ho, _⟩ | ⟨_, rfl⟩ | ⟨_, rfl⟩ | ⟨ho, b', _, _, rfl⟩ | ⟨ho, v, _, rfl⟩
    · exact .inl (idle (busy_eq_false.mpr (k1.symm.trans ho)))
    · exact .inl rfl
    · exact .inl rfl
    · have hn := idx_succ_toNat (hib.probeLeft (.inl ho))
      unfold insertAdvance
      split
      · exact .inl rfl
      · exact .inr (.inl ⟨k1, k2, .inl (k1.symm.trans ho), by rw [e'], hn.trans (by rw [k3])⟩)
    · have hn := idx_succ_toNat (hib.probeLeft (.inr ho))
      unfold queryAdvance
      split
      · exact .inl rfl
      split
      · exact .inl rfl
      · exact .inr (.inl ⟨k1, k2, .inr (k1.symm.trans ho), by rw [e'], hn.trans (by rw [k3])⟩)
  | quiet hs hsch =>
    refine .inr (.inr ⟨?_, kept t hs⟩)
    rintro ⟨⟩
    rcases hsch with ⟨_, _, hsch⟩ | ⟨_, _, _, hsch⟩ <;> cases hsch
  | reset b _ _ ht => rw [ht]; exact .inl rfl
  | enable b v _ hs hsch _ ht =>
    rw [ht]
    exact .inr (.inr ⟨(by rintro ⟨⟩; cases hsch), kept b hs⟩)
  | clearDone b v _ hs hsch _ ht =>
    rw [ht]
    exact .inr (.inr ⟨(by rintro ⟨⟩; cases hsch), kept b hs⟩)
  | gated b off v _ hs _ hsch _ ht =>
    rw [ht]
    exact .inr (.inr ⟨(by rintro ⟨⟩; cases hsch), kept b hs⟩)
  | cfgWidth b v _ hi _ => exact .inl (idle hi)
  | cfgHashCount b v _ hi _ => exact .inl (idle hi)
  | item b j v _ hi _ _ => exact .inl (idle hi)
  | word b w _ d _ hi _ _ => exact .inl (idle hi)

end Sys2Proof.Machine
end

