-- ==== Sys2Proof/Laws/Host.lean ====
section
/-! SUPPORT. What the host's sizing function answers (spec 44), by the kind of rate and by the derived pair. -/

namespace Sys2Proof.Machine

theorem one_le_clampToOne (raw : Int) : 1 ≤ clampToOne raw := by
  unfold clampToOne
  split <;> omega

variable {a : HostArith} {c : Params}

@[simp] theorem hostDerive_nan [DecidablePred rateInRange] (n : Nat) :
    hostDerive a c .nan n = .error .invalidParameter := rfl

theorem hostDerive_number [DecidablePred rateInRange] (f : ℝ) (n : Nat) :
    hostDerive a c (.number f) n =
      if ¬ rateInRange f ∨ n = 0 then .error .invalidParameter
      else checkPair c (derivedWidth a f n) (derivedCount a (derivedWidth a f n) n) := rfl

/-- The pair that passes the checks is the one given, in the ranges of R183. -/
theorem checkPair_eq_ok {w k : Nat} {pair : Nat × Nat} :
    checkPair c w k = .ok pair ↔ k ≤ 255 ∧ w ≤ c.maxWidth ∧ pair = (w, k) := by
  have := c.maxWidth_le
  unfold checkPair
  constructor
  · intro h
    split at h
    · cases h
    split at h
    · cases h
    split at h
    · cases h
    injection h with h
    exact ⟨by omega, by omega, h.symm⟩
  · rintro ⟨hk, hw, rfl⟩
    rw [if_neg (by omega), if_neg (by omega), if_neg (by omega)]

end Sys2Proof.Machine
end

