-- ==== Sys2Proof/Laws/PerInstr.lean ====
section
/-! SUPPORT. Facts about each instruction as syntax, one lemma per constructor. Family `EncodeRow`: the word of a
well-formed instruction is the match pattern of its row of the opcode map (spec R103) with `len` in bits [31:16]. -/

namespace Sys2Proof.Laws.EncodeRow

/-- The item length an instruction names; 0 for the two of format C0. -/
def lenOperand : Instr → Nat
  | .init => 0
  | .insert len => len
  | .query len => len
  | .release => 0

/-- `encode i` is the match pattern of the row with `i`'s mnemonic, plus `len` shifted left by 16. -/
def Statement (i : Instr) : Prop :=
  i.wellFormed = true →
    ∃ r ∈ opcodeRows, r.mnemonic = mnemonicOf i ∧ (encode i).toNat = r.matchBits.toNat + 65536 * lenOperand i

theorem init : Statement .init :=
  fun _ => ⟨⟨"INIT", 0x00000001, 0xFFFFFFFF⟩, by decide, rfl, rfl⟩

theorem insert (len : Nat) : Statement (.insert len) := fun h =>
  ⟨⟨"INSERT", 0x00000002, 0x0000FFFF⟩, by decide, rfl, by
    rw [encode_insert_toNat (of_decide_eq_true h)]; exact Nat.add_comm _ _⟩

theorem query (len : Nat) : Statement (.query len) := fun h =>
  ⟨⟨"QUERY", 0x00000003, 0x0000FFFF⟩, by decide, rfl, by
    rw [encode_query_toNat (of_decide_eq_true h)]; exact Nat.add_comm _ _⟩

theorem release : Statement .release :=
  fun _ => ⟨⟨"RELEASE", 0x00000004, 0xFFFFFFFF⟩, by decide, rfl, rfl⟩

end Sys2Proof.Laws.EncodeRow
end

