-- ==== Sys2Proof/Tests/Slice0.lean ====
section
/-! SUPPORT. Tests of one word, one register access or one step each, with expected results from the spec (mostly the
vectors of 95_test_vectors.md, reference configuration), and for every obligation with hypotheses a witness that meets
them. -/

namespace Sys2Proof.Tests

open Sys2Proof.Machine

/-- What is read of a result that is a next state. -/
def after {α : Type} (f : State → α) : Result → Option α
  | .next t => some (f t)
  | _ => none

/-! ### Well-formedness (R102: `len` is 0 .. 65535) -/

theorem test_insert_len_65536_is_ill_formed : (Instr.insert 65536).wellFormed = false := by decide
theorem test_query_len_65536_is_ill_formed : (Instr.query 65536).wellFormed = false := by decide
theorem test_insert_len_65535_is_well_formed : (Instr.insert 65535).wellFormed = true := by decide

/-! ### Decoding, words written out from R101 and R102 (95, section 2.4) -/

theorem test_decode_init : decode 0b00000000000000000000000000000001#32 = .ok .init := by decide
theorem test_decode_release : decode 0b00000000000000000000000000000100#32 = .ok .release := by decide
theorem test_decode_insert : decode 0b00000000000001010000000000000010#32 = .ok (.insert 5) := by decide
theorem test_decode_insert_256 : decode 0b00000001000000000000000000000010#32 = .ok (.insert 256) := by decide
theorem test_decode_query : decode 0b00000000000011110000000000000011#32 = .ok (.query 15) := by decide
theorem test_decode_opcode_0 : decode 0b00000000000000000000000000000000#32 = .error .unusedOpcode := by decide
theorem test_decode_opcode_5 : decode 0b00000000000000000000000000000101#32 = .error .unusedOpcode := by decide
theorem test_decode_opcode_ff : decode 0b00000000000000000000000011111111#32 = .error .unusedOpcode := by decide
theorem test_decode_init_reserved : decode 0b00000000000001010000000000000001#32 = .error .reservedBitsC0 := by decide
theorem test_decode_release_reserved : decode 0b00000000000000000000000100000100#32 = .error .reservedBitsC0 := by decide
theorem test_decode_insert_reserved : decode 0b00000000000000000000000100000010#32 = .error .reservedBitsCL := by decide
theorem test_decode_query_reserved : decode 0b00000000000001011000000000000011#32 = .error .reservedBitsCL := by decide
theorem test_table_word_query : decodeTableWord 32 0xFFFF0003 = some (.query 65535) := by decide
theorem test_table_word_illegal : decodeTableWord 32 0x00000101 = none := by decide

/-! ### The first command word after reset (95, section 2.5, 2.6) -/

/-- INIT with nothing staged: `ERR` = 1, `STATUS` = 0x06. -/
theorem test_first_word_init : after (fun t => (t.errCode, statusWord t)) (step (State.reset.withFetchWord 32 1)) =
    some (1, 0x06) := by decide
theorem test_first_word_insert : after (fun t => (t.errCode, statusWord t)) (step (State.reset.withFetchWord 32 0x00050002)) =
    some (6, 0x06) := by decide
theorem test_first_word_query : after (fun t => (t.errCode, statusWord t)) (step (State.reset.withFetchWord 32 0x00050003)) =
    some (6, 0x06) := by decide
theorem test_first_word_release : after (fun t => (t.errCode, statusWord t)) (step (State.reset.withFetchWord 32 4)) =
    some (6, 0x06) := by decide
theorem test_first_word_illegal : after (fun t => (t.errCode, statusWord t)) (step (State.reset.withFetchWord 32 0x00050001)) =
    some (5, 0x06) := by decide

/-! ### INIT and RELEASE (95, section 2.5) -/

/-- The reset state with the staging registers written. -/
def staged (w k : Word) : State := { State.reset with cfgWidth := w, cfgHashCount := k }

theorem test_init_over_capacity : (processWord referenceParams (some .init) (staged 65537 255)).errCode = 4 := by decide
theorem test_init_count_before_capacity :
    (processWord referenceParams (some .init) (staged 70000 300)).errCode = 2 := by decide
theorem test_init_completes : let t := initStep { staged 65536 255 with curOp := .init }
    (statusWord t, t.width, t.hashCount, t.itemCount, t.idx) = (0x0A, 0x00010000, 0xFF, 0, 0) := by decide

/-- A configured idle block of the reference configuration with the given set bits (95, sections 2.6, 2.7). -/
def configured (width : Word) (count : BitVec 8) (bits : BitSet) : State :=
  { State.reset with ready := true, width := width, hashCount := count, bitArray := some bits, itemCount := 1 }

theorem test_release_completes : let t := releaseStep { configured 64 4 [7] with curOp := .release }
    (statusWord t, t.width, t.hashCount, t.itemCount) = (0x02, 0, 0, 0) := by decide

/-! ### INSERT and QUERY (95, sections 2.2, 2.6, 2.7) -/

/-- The item buffer after LOAD of an item. -/
def load (x : List Byte) : Memory := storeWords [] 0 (pack x)

def hello : List Byte := [0x68, 0x65, 0x6C, 0x6C, 0x6F]

/-- "k222", which probes 53, 7, 62 at width 64. -/
def k222 : List Byte := [0x6B, 0x32, 0x32, 0x32]

theorem test_hello_packs_little_endian : pack hello = [0x6C6C6568, 0x0000006F] := by decide

/-- "hello" at width 64: probe 3 is bit 53, the last; `ITEM_COUNT` goes up and `STATUS` is 0x0A. -/
theorem test_insert_last_probe :
    after (fun t => (t.bitArray, t.itemCount, t.idx, statusWord t))
      (insertStep referenceParams
        { configured 64 4 [7, 45, 61] with curOp := .insert, curLen := 5, idx := 3, item := load hello }) =
    some (some [7, 45, 53, 61], 2, 4, 0x0A) := by decide +kernel

/-- "hello" at width 64: probe 0 is bit 7, and the command goes on. -/
theorem test_insert_first_probe :
    after (fun t => (t.bitArray, t.itemCount, t.idx, statusWord t))
      (insertStep referenceParams { configured 64 4 [] with curOp := .insert, curLen := 5, item := load hello }) =
    some (some [7], 1, 1, 0x09) := by decide +kernel

/-- "k222": probe 2 is bit 62, which is 0: a miss with `PROBES` = 3. -/
theorem test_query_short_circuit :
    after (fun t => (t.idx, statusWord t))
      (queryStep referenceParams
        { configured 64 4 [7, 45, 53, 61] with curOp := .query, curLen := 4, idx := 2, item := load k222 }) =
    some (3, 0x0A) := by decide +kernel

/-- "hello": the last probe finds 1: a hit, `STATUS` = 0x1A. -/
theorem test_query_hit :
    after (fun t => (t.idx, statusWord t))
      (queryStep referenceParams
        { configured 64 4 [7, 45, 53, 61] with curOp := .query, curLen := 5, idx := 3, item := load hello }) =
    some (4, 0x1A) := by decide +kernel

/-! ### `HASH_REF` (95, section 2.1) -/

theorem test_hash_empty : hashRef [] 0xFFFFFFFF = 0x81F16F39 := by decide +kernel
theorem test_hash_block : hashRef [0x21, 0x43, 0x65, 0x87] 0x5082EDEE = 0x2362F9DE := by decide +kernel
theorem test_hash_tail_3 : hashRef [0x21, 0x43, 0x65] 0 = 0x7E4A8634 := by decide +kernel
theorem test_hash_tail_2 : hashRef [0x21, 0x43] 0 = 0xA0F7B07A := by decide +kernel
theorem test_hash_tail_1 : hashRef [0x21] 0 = 0x72661CF4 := by decide +kernel

/-! ### Registers (95, section 2.8, and program P5) -/

theorem test_read_cap_width : regReadAnswer referenceParams State.reset 0x004 = .read .okay 0x00010000 := by decide
theorem test_read_last_item_word : regReadAnswer referenceParams State.reset 0x1FC = .read .okay 0 := by decide
theorem test_read_beyond_item : regReadAnswer referenceParams State.reset 0x200 = .read .error 0 := by decide
theorem test_read_reserved : regReadAnswer referenceParams State.reset 0x038 = .read .error 0 := by decide
theorem test_read_misaligned : regReadAnswer referenceParams State.reset 0x002 = .read .error 0 := by decide
theorem test_write_ctrl : after (·.ie) (regWrite referenceParams exec 0x00C 0xFFFFFFFD State.reset) = some true := by decide
theorem test_write_item : after (·.item) (regWrite referenceParams exec 0x100 0x6C6C6568 State.reset) =
    some [(0, 0x68), (1, 0x65), (2, 0x6C), (3, 0x6C)] := by decide +kernel

/-- P5, line 11: an `ITEM` write while busy is dropped and marks `viol`: `STATUS` = 0x29, the buffer as it was. -/
theorem test_write_item_busy :
    after (fun t => (statusWord t, t.item))
      (regWrite referenceParams exec 0x100 0x41414141
        { configured 64 4 [7] with curOp := .insert, curLen := 5, idx := 1, item := load hello }) =
    some (0x29, load hello) := by decide +kernel

/-- P5, line 24: the soft reset while busy leaves `STATUS` = 0 and zeroed staging registers. -/
theorem test_soft_reset_busy :
    after (fun t => (statusWord t, t.cfgWidth, t.bitArray))
      (regWrite referenceParams exec 0x00C 2 { configured 64 4 [7] with curOp := .insert, cfgWidth := 64, viol := true }) =
    some (0, 0, none) := by decide

/-! ### Witnesses: states of the block being modelled that meet the hypotheses of the obligations -/

/-- A filter of width 1, which every choice of `MAX_WIDTH` allows. -/
def filter (op : Op) (count idx : BitVec 8) (bits : BitSet) : State :=
  { State.reset with ready := true, width := 1, hashCount := count, idx := idx, curOp := op, bitArray := some bits }

/-- `s` with the next steps of its schedule. -/
def next (events : List Event) (s : State) : State := { s with schedule := events }

theorem position_width_1 (x : List Byte) (i : BitVec 8) : position .chip x i 1 = 0 := Nat.mod_one _

theorem filter_inv {op : Op} {count idx : BitVec 8} {bits : BitSet} (ho : op ≠ .init) (hk : 1 ≤ count.toNat)
    (hi : idx.toNat ≤ count.toNat) (hp : op = .insert ∨ op = .query → idx.toNat < count.toNat)
    (hr : op = .release → idx = 0) (hb : bits = [] ∨ bits = [0]) (hs : idx = 0 ∨ bits = [0]) :
    Inv .chip (filter op count idx bits) where
  readyWidth := fun _ => ⟨Nat.le_refl 1, Params.chip.maxWidth_pos⟩
  readyCount := fun _ => hk
  unready := nofun
  arrayInUse := fun _ => by
    rcases hb with rfl | rfl
    · exact ⟨_, rfl, rfl, nofun⟩
    · exact ⟨_, rfl, rfl, fun p hp => by rw [List.mem_singleton.mp hp]; exact Nat.one_pos⟩
  noArray := nofun
  probesMade := hi
  probeLeft := hp
  needsFilter := fun _ => rfl
  initUnready := fun h => absurd h ho
  initStaged := fun h => absurd h ho
  lifecycleIdx := fun h => h.elim (fun h => absurd h ho) hr
  lenFits := Nat.zero_le _
  lenZero := fun _ => rfl
  errorCoded := ⟨nofun, fun h => absurd rfl h⟩
  codeKnown := ⟨Nat.zero_le 9, nofun⟩
  busyQuiet := fun _ => ⟨rfl, rfl, rfl⟩
  hitMeans := nofun
  countRoom := fun _ h => absurd (congrArg BitVec.toNat h) (by decide : (0 : Nat) ≠ itemCountMax.toNat)
  itemWf := rfl
  itemBounds := nofun
  probesSet := fun _ i h => by
    rcases hs with rfl | rfl
    · exact absurd h (Nat.not_lt_zero i)
    · show bitRead _ (position .chip _ _ 1) = some true
      rw [position_width_1]
      rfl

/-- The idle filter, and each command in progress on it. -/
theorem idle_inv {bits : BitSet} (hb : bits = [] ∨ bits = [0]) : Inv .chip (filter .none 1 0 bits) :=
  filter_inv nofun (by decide) (by decide) (by simp) nofun hb (.inl rfl)

theorem insert_inv : Inv .chip (filter .insert 1 0 []) :=
  filter_inv nofun (by decide) (by decide) (by decide) nofun (.inl rfl) (.inl rfl)

theorem insert_first_inv : Inv .chip (filter .insert 2 0 []) :=
  filter_inv nofun (by decide) (by decide) (by decide) nofun (.inl rfl) (.inl rfl)

theorem insert_255_inv : Inv .chip (filter .insert 255 254 [0]) :=
  filter_inv nofun (by decide) (by decide) (by decide) nofun (.inr rfl) (.inr rfl)

theorem query_inv {bits : BitSet} (hb : bits = [] ∨ bits = [0]) : Inv .chip (filter .query 1 0 bits) :=
  filter_inv nofun (by decide) (by decide) (by decide) nofun hb (.inl rfl)

theorem query_first_inv : Inv .chip (filter .query 2 0 [0]) :=
  filter_inv nofun (by decide) (by decide) (by decide) nofun (.inr rfl) (.inl rfl)

theorem release_inv : Inv .chip (filter .release 1 0 [0]) :=
  filter_inv nofun (by decide) (by decide) (by decide) (fun _ => rfl) (.inr rfl) (.inl rfl)

/-- The largest item, `len = ITEM_MAX`, and the next longer one still have an encoding. -/
theorem itemMax_encodable : Params.chip.itemMax + 1 < 65536 := by
  have := Params.chip.itemMax_le
  omega

/-- An INSERT probe step on a filter of width 1. -/
theorem insert_step {count idx : BitVec 8} {bits : BitSet} (events : List Event) :
    engineStep .chip (next events (filter .insert count idx bits)) =
      .next (insertAdvance (next events (filter .insert count idx (bitInsert bits 0)))) := by
  have hp : probePosition .chip (next events (filter .insert count idx bits)) = 0 := position_width_1 _ _
  exact (engineStep_insert rfl rfl (by rw [hp]; exact Nat.one_pos)).trans (by rw [hp]; rfl)

/-- A QUERY probe step on a filter of width 1. -/
theorem query_step {count idx : BitVec 8} {bits : BitSet} (events : List Event) :
    engineStep .chip (next events (filter .query count idx bits)) =
      .next (queryAdvance (bitListed bits 0) (next events (filter .query count idx bits))) := by
  have hp : probePosition .chip (next events (filter .query count idx bits)) = 0 := position_width_1 _ _
  exact engineStep_query rfl (by rw [hp]; rfl)

/-! #### Encoding and steps -/

theorem witness_DecodeFollowsOpcodeRows :
    (∃ r ∈ opcodeRows, r.selectedBy 0xFFFF0003 = true ∧ r.mnemonic = "QUERY") ∧
    (∀ r ∈ opcodeRows, r.selectedBy 0x00000101 = false) := by decide

theorem witness_DecodeOfEncode :
    Instr.wellFormed .init = true ∧ Instr.wellFormed .release = true ∧
    Instr.wellFormed (.insert 65535) = true ∧ Instr.wellFormed (.query 0) = true := by decide

theorem witness_EncodeOfDecode :
    decode 0x00000001 = .ok .init ∧ decode 0x00000004 = .ok .release ∧
    decode 0xFFFF0002 = .ok (.insert 65535) ∧ decode 0x00000003 = .ok (.query 0) := by decide

theorem witness_CommandStepRunsDecodedInstruction :
    (next [.regWrite 0x030 4] State.reset).schedule = .regWrite 0x030 4 :: [] ∧
    (next [.regWrite 0x030 4] State.reset).busy = false ∧ decode 4 = .ok .release := by decide

theorem witness_FetchWordIsTheNextCommand :
    State.reset.busy = false ∧ decode 0x00050002 = .ok (.insert 5) := by decide

theorem witness_EngineEventsAndIdleSteps :
    (next [.engine] State.reset).schedule = .engine :: [] ∧ State.reset.schedule = [] ∧ State.reset.busy = false := by
  decide

/-! #### Command words -/

theorem witness_IllegalWordRejected (w : Word) (h : w = 0 ∨ w = 5 ∨ w = 0x00000101 ∨ w = 0x00058003) :
    (next [.regWrite 0x030 w] State.reset).schedule = .regWrite 0x030 w :: [] ∧
    (next [.regWrite 0x030 w] State.reset).busy = false ∧ ∃ reason, decode w = .error reason := by
  rcases h with rfl | rfl | rfl | rfl <;> exact ⟨rfl, rfl, _, rfl⟩

theorem witness_InitChecksInOrder :
    ((configured 64 4 []).busy = false ∧ (configured 64 4 []).ready = true) ∧
    ((staged 0 256).busy = false ∧ (staged 0 256).ready = false ∧ (staged 0 256).cfgWidth = 0) ∧
    ((staged 65537 256).ready = false ∧ 255 < (staged 65537 256).cfgHashCount.toNat) ∧
    ((staged 65537 255).cfgHashCount.toNat ≤ 255 ∧ referenceParams.maxWidth < (staged 65537 255).cfgWidth.toNat) ∧
    ((staged 65536 255).cfgHashCount.toNat ≤ 255 ∧ (staged 65536 255).cfgWidth.toNat ≤ referenceParams.maxWidth) := by
  decide

theorem witness_NoFilterRejected : State.reset.busy = false ∧ State.reset.ready = false := by decide

theorem witness_LongItemRejected :
    (filter .none 1 0 []).busy = false ∧ (filter .none 1 0 []).ready = true ∧
    Params.chip.itemMax < Params.chip.itemMax + 1 ∧ (Instr.insert (Params.chip.itemMax + 1)).wellFormed = true :=
  ⟨rfl, rfl, Nat.lt_succ_self _, decide_eq_true itemMax_encodable⟩

/-- The filter with `item_count` at its top. -/
def fullCounter : State := { filter .none 1 0 [0] with itemCount := 18446744073709551615 }

theorem witness_FullCounterRejectsInsert :
    fullCounter.busy = false ∧ fullCounter.ready = true ∧ Params.chip.itemMax ≤ Params.chip.itemMax ∧
    fullCounter.itemCount.toNat = 2 ^ 64 - 1 := ⟨rfl, rfl, Nat.le_refl _, rfl⟩

theorem witness_FilterCommandsAccepted :
    (filter .none 1 0 []).busy = false ∧ (filter .none 1 0 []).ready = true ∧
    Params.chip.itemMax ≤ Params.chip.itemMax ∧ (filter .none 1 0 []).itemCount.toNat ≠ 2 ^ 64 - 1 :=
  ⟨rfl, rfl, Nat.le_refl _, by decide⟩

theorem witness_WordIsRejectedOrAccepted : State.reset.busy = false := rfl

theorem witness_CommandWordFrame (i : Instr) (s : State) : ∃ t, exec i s = .next t := ⟨_, exec_eq i s⟩

/-! #### What each command does -/

theorem witness_InitBuildsEmptyFilter :
    (staged 1 255).busy = false ∧ (staged 1 255).ready = false ∧ (staged 1 255).curLen = 0 ∧
    (staged 1 255).cfgWidth ≠ 0 ∧ (staged 1 255).cfgWidth.toNat ≤ Params.chip.maxWidth ∧
    (staged 1 255).cfgHashCount ≠ 0 ∧ (staged 1 255).cfgHashCount.toNat ≤ 255 :=
  ⟨rfl, rfl, rfl, by decide, Params.chip.maxWidth_pos, by decide, by decide⟩

theorem witness_ReleaseDropsFilter :
    (filter .none 1 0 [0]).busy = false ∧ (filter .none 1 0 [0]).ready = true ∧ (filter .none 1 0 [0]).curLen = 0 := by
  decide

theorem witness_InsertSetsItsBits :
    Inv .chip (filter .none 1 0 []) ∧ (filter .none 1 0 []).busy = false ∧ (filter .none 1 0 []).ready = true ∧
    Params.chip.itemMax ≤ Params.chip.itemMax ∧ (filter .none 1 0 []).itemCount.toNat ≠ 2 ^ 64 - 1 :=
  ⟨idle_inv (.inl rfl), rfl, rfl, Nat.le_refl _, by decide⟩

theorem witness_QueryAnswersMembership :
    Inv .chip (filter .none 1 0 [0]) ∧ (filter .none 1 0 [0]).busy = false ∧ (filter .none 1 0 [0]).ready = true ∧
    Params.chip.itemMax ≤ Params.chip.itemMax := ⟨idle_inv (.inr rfl), rfl, rfl, Nat.le_refl _⟩

/-- The last of 255 probes, and one that is not the last. -/
theorem witness_InsertProbeStep :
    (Inv .chip (filter .insert 255 254 [0]) ∧ (filter .insert 255 254 [0]).curOp = .insert ∧
      (filter .insert 255 254 [0]).idx.toNat + 1 = (filter .insert 255 254 [0]).hashCount.toNat) ∧
    (Inv .chip (filter .insert 2 0 []) ∧ (filter .insert 2 0 []).curOp = .insert ∧
      (filter .insert 2 0 []).idx.toNat + 1 ≠ (filter .insert 2 0 []).hashCount.toNat) :=
  ⟨⟨insert_255_inv, rfl, rfl⟩, insert_first_inv, rfl, by decide⟩

/-- A 0, the last 1, and a 1 that is not the last. -/
theorem witness_QueryProbeStep :
    (Inv .chip (filter .query 1 0 []) ∧ bitRead (filter .query 1 0 []) 0 = some false) ∧
    (Inv .chip (filter .query 1 0 [0]) ∧ bitRead (filter .query 1 0 [0]) 0 = some true ∧
      (filter .query 1 0 [0]).idx.toNat + 1 = (filter .query 1 0 [0]).hashCount.toNat) ∧
    (Inv .chip (filter .query 2 0 [0]) ∧ bitRead (filter .query 2 0 [0]) 0 = some true ∧
      (filter .query 2 0 [0]).idx.toNat + 1 ≠ (filter .query 2 0 [0]).hashCount.toNat) ∧
    probePosition .chip (filter .query 1 0 []) = 0 :=
  ⟨⟨query_inv (.inl rfl), rfl⟩, ⟨query_inv (.inr rfl), rfl, rfl⟩, ⟨query_first_inv, rfl, by decide⟩, position_width_1 _ _⟩

theorem witness_EmptyFilterMissesAtFirstProbe :
    (filter .none 1 0 []).busy = false ∧ (filter .none 1 0 []).ready = true ∧ (filter .none 1 0 []).curLen = 0 ∧
    1 ≤ (filter .none 1 0 []).width.toNat ∧
    (∀ p, p < (filter .none 1 0 []).width.toNat → bitRead (filter .none 1 0 []) p = some false) ∧
    0 ≤ Params.chip.itemMax :=
  ⟨rfl, rfl, rfl, by decide, fun p hp => if_pos hp, Nat.zero_le _⟩

theorem witness_DuplicateInsertOnlyCounts :
    Inv .chip (filter .none 1 0 [0]) ∧ (filter .none 1 0 [0]).busy = false ∧ (filter .none 1 0 [0]).ready = true ∧
    0 ≤ Params.chip.itemMax ∧ (filter .none 1 0 [0]).itemCount.toNat ≠ 2 ^ 64 - 1 ∧
    allProbesSet .chip (filter .none 1 0 [0]) (itemBytes (filter .none 1 0 [0]) 0) :=
  ⟨idle_inv (.inr rfl), rfl, rfl, Nat.zero_le _, by decide, fun i _ => by
    show bitRead _ (position .chip _ _ 1) = some true
    rw [position_width_1]; rfl⟩

theorem witness_PositionInRange :
    (1 : Word) ≠ 0 ∧ (4294967295 : Word) ≠ 0 ∧ (referenceParams.hash [] (seedOf 0)).toNat < (1 : Word).toNat := by
  decide +kernel

theorem witness_ItemTailTakesNoPart :
    (filter .insert 1 0 []).curLen.toNat ≤ 0 ∧
    sameUpToItemTail 0 (filter .insert 1 0 []) { filter .insert 1 0 [] with item := [(0, 1)] } ∧
    ∃ u, engineRun .chip 1 (filter .insert 1 0 []) = .next u :=
  ⟨Nat.le_refl _, ⟨rfl, nofun⟩, _, engineRun_succ (insert_step []) 0⟩

/-! #### The engine -/

theorem init_busy_inv : Inv .chip { staged 1 1 with curOp := .init } :=
  (((inv_reset (c := .chip) State.reset).cfgWidth rfl 1).cfgHashCount rfl 1).accepted (i := .init)
    (check_init_accepts.mpr ⟨rfl, by decide, by decide, by decide, Params.chip.maxWidth_pos⟩)

theorem witness_EngineNeverFails :
    Inv .chip (filter .query 2 0 [0]) ∧ (filter .query 2 0 [0]).busy = true := ⟨query_first_inv, rfl⟩

/-- Each of the four commands in progress. -/
theorem witness_CommandsComplete :
    (Inv .chip { staged 1 1 with curOp := .init } ∧ State.busy { staged 1 1 with curOp := .init } = true) ∧
    (Inv .chip (filter .release 1 0 [0]) ∧ (filter .release 1 0 [0]).busy = true) ∧
    (Inv .chip (filter .insert 255 254 [0]) ∧ (filter .insert 255 254 [0]).busy = true) ∧
    (Inv .chip (filter .query 1 0 []) ∧ (filter .query 1 0 []).busy = true) :=
  ⟨⟨init_busy_inv, rfl⟩, ⟨release_inv, rfl⟩, ⟨insert_255_inv, rfl⟩, query_inv (.inl rfl), rfl⟩

/-! #### Registers -/

/-- What `readsAs` and `writeIgnored` suppose of a state, for any offset. -/
theorem witness_IdentityRegisters (off : Nat) (v : Word) :
    (next [.regRead off] State.reset).schedule = .regRead off :: [] ∧
    (next [.regWrite off v] State.reset).schedule = .regWrite off v :: [] := ⟨rfl, rfl⟩

theorem witness_FilterRegisters (off : Nat) (v : Word) :
    (next [.regRead off] State.reset).schedule = .regRead off :: [] ∧
    (next [.regWrite off v] State.reset).schedule = .regWrite off v :: [] := ⟨rfl, rfl⟩

theorem witness_OutcomeRegisters (off : Nat) (v : Word) :
    (next [.regRead off] State.reset).schedule = .regRead off :: [] ∧
    (next [.regWrite off v] State.reset).schedule = .regWrite off v :: [] := ⟨rfl, rfl⟩

theorem witness_CtrlRegister :
    (next [.regWrite 0x00C 3] (filter .insert 1 0 [])).schedule = .regWrite 0x00C 3 :: [] ∧
    (3 : Word).getLsbD 1 = true ∧ (0xFFFFFFFD : Word).getLsbD 1 = false := by decide

theorem witness_StatusRegister :
    (next [.regWrite 0x010 2] (filter .insert 1 0 [])).schedule = .regWrite 0x010 2 :: [] ∧
    (next [.regRead 0x010] State.reset).schedule = .regRead 0x010 :: [] := by decide

theorem witness_StagingRegisters :
    ((next [.regWrite 0x018 0xFFFFFFFF] State.reset).schedule = .regWrite 0x018 0xFFFFFFFF :: [] ∧
      (next [.regWrite 0x018 0xFFFFFFFF] State.reset).busy = false) ∧
    ((next [.regWrite 0x01C 256] (filter .insert 1 0 [])).schedule = .regWrite 0x01C 256 :: [] ∧
      (next [.regWrite 0x01C 256] (filter .insert 1 0 [])).busy = true) := by decide

/-- The first word of the item buffer, and the last. -/
theorem witness_ItemRegister :
    Memory.wf State.reset.item = true ∧ 4 * 0 < Params.chip.itemMax ∧
    4 * (Params.chip.itemMax / 4 - 1) < Params.chip.itemMax ∧
    (next [.regWrite 0x100 1] State.reset).schedule = .regWrite 0x100 1 :: [] ∧
    (next [.regWrite 0x100 1] State.reset).busy = false := by
  have := Params.chip.itemMax_ge
  exact ⟨rfl, by omega, by omega, rfl, rfl⟩

theorem witness_UnmappedOffsetsAnswerError :
    offsetUnmapped .chip 0x002 ∧ offsetUnmapped .chip 0x1000 ∧ offsetUnmapped .chip 0x038 ∧
    offsetUnmapped .chip 0x0FC ∧ offsetUnmapped .chip (0x100 + Params.chip.itemMax) ∧
    (next [.regRead 0x0FC] State.reset).schedule = .regRead 0x0FC :: [] ∧
    (next [.regWrite 0x0FC 1] State.reset).schedule = .regWrite 0x0FC 1 :: [] :=
  ⟨.inl (by decide), .inr (.inl (by decide)), .inr (.inr (.inl (by decide))), .inr (.inr (.inl (by decide))),
    .inr (.inr (.inr (Nat.le_refl _))), rfl, rfl⟩

theorem witness_ReadsHaveNoSideEffect :
    (next [.regRead 0x010, .regRead 0x010] State.reset).schedule = .regRead 0x010 :: .regRead 0x010 :: [] := rfl

/-- The four kinds of busy-gated register, the item buffer at its two ends. -/
theorem witness_BusyGate :
    (next [.regWrite 0x030 1] (filter .insert 1 0 [])).schedule = .regWrite 0x030 1 :: [] ∧
    (next [.regWrite 0x030 1] (filter .insert 1 0 [])).busy = true ∧
    offsetGated .chip 0x018 ∧ offsetGated .chip 0x01C ∧ offsetGated .chip 0x030 ∧ offsetGated .chip 0x100 ∧
    offsetGated .chip (0x100 + 4 * (Params.chip.itemMax / 4 - 1)) := by
  have := Params.chip.itemMax_ge
  exact ⟨rfl, rfl, .inl rfl, .inr (.inl rfl), .inr (.inr (.inl rfl)), .inr (.inr (.inr ⟨0, rfl, by omega⟩)),
    .inr (.inr (.inr ⟨_, rfl, by omega⟩))⟩

theorem witness_PackedItemReadsBack : Memory.wf State.reset.item = true := rfl

/-! #### Flags, interrupt, errors -/

theorem witness_ViolIsSticky :
    (∃ s t : State, step s = .next t ∧ s.viol = true ∧ t.viol = false) ∧
    (∃ s t : State, step s = .next t ∧ s.viol = false ∧ t.viol = true) :=
  ⟨⟨{ next [.reset] State.reset with viol := true }, _, step_reset rfl, rfl, rfl⟩,
    ⟨next [.regWrite 0x030 1] (filter .insert 1 0 []), _, (step_command rfl).trans (writeCmd_busy rfl _), rfl, rfl⟩⟩

/-- A completion, a rejection, and the three ways `done` falls. -/
theorem witness_DoneRule :
    (∃ t, step (next [.engine] (filter .release 1 0 [0])) = .next t ∧ t.done = true) ∧
    (∃ t, step (next [.regWrite 0x030 0] State.reset) = .next t ∧ t.done = true) ∧
    (∃ t, step { next [.reset] State.reset with done := true } = .next t ∧ t.done = false) ∧
    (∃ t, step { next [.regWrite 0x010 2] State.reset with done := true } = .next t ∧ t.done = false) ∧
    (∃ t, step { next [.regWrite 0x030 4] (filter .none 1 0 []) with done := true } = .next t ∧ t.done = false) :=
  ⟨⟨_, (step_engine rfl).trans (engineStep_release rfl), rfl⟩, ⟨_, rfl, rfl⟩, ⟨_, step_reset rfl, rfl⟩,
    ⟨_, rfl, rfl⟩, ⟨_, rfl, rfl⟩⟩

theorem witness_HitOnlyByFullQuery :
    Inv .chip (next [.engine] (filter .query 1 0 [0])) ∧
    ∃ t, step (next [.engine] (filter .query 1 0 [0])) = .next t ∧ t.hit = true :=
  ⟨(query_inv (.inr rfl)).outside rfl, _, (step_engine rfl).trans (query_step []), rfl⟩

theorem witness_ReadyRule :
    (∃ s t : State, step s = .next t ∧ s.ready = false ∧ t.ready = true) ∧
    (∃ s t : State, step s = .next t ∧ s.ready = true ∧ t.ready = false) :=
  ⟨⟨next [.engine] { staged 1 1 with curOp := .init }, _, (step_engine rfl).trans (engineStep_init rfl), rfl, rfl⟩,
    ⟨next [.engine] (filter .release 1 0 [0]), _, (step_engine rfl).trans (engineStep_release rfl), rfl, rfl⟩⟩

theorem witness_ErrorOnlyByRejection :
    ∃ t, step (next [.regWrite 0x030 0] State.reset) = .next t ∧ State.reset.error = false ∧ t.error = true :=
  ⟨_, rfl, rfl, rfl⟩

theorem witness_InterruptLevel :
    (∃ t, step (next [.regWrite 0x030 0] { State.reset with ie := true }) = .next t ∧ t.done = true) ∧
    (next [.regWrite 0x00C 1] State.reset).schedule = .regWrite 0x00C 1 :: [] ∧ (1 : Word).getLsbD 1 = false ∧
    (next [.regWrite 0x010 2] State.reset).schedule = .regWrite 0x010 2 :: [] ∧ (2 : Word).getLsbD 1 = true :=
  ⟨⟨_, rfl, rfl⟩, rfl, by decide, rfl, by decide⟩

/-! #### Reset, invariants, whole-machine rules -/

theorem witness_HardwareReset : (next [.reset] (filter .insert 1 0 [])).schedule = .reset :: [] := rfl

theorem witness_SoftResetIsHardwareReset : (2 : Word).getLsbD 1 = true ∧ (0xFFFFFFFF : Word).getLsbD 1 = true := by decide

theorem witness_OnlyInitAfterReset :
    State.reset.ready = false ∧ State.reset.busy = false ∧ decode 1 = .ok .init ∧ decode 4 = .ok .release ∧
    decode 2 = .ok (.insert 0) ∧ decode 3 = .ok (.query 0) := by decide

theorem witness_StepKeepsInv :
    Inv .chip (next [.engine] (filter .insert 1 0 [])) ∧
    ∃ t, step (next [.engine] (filter .insert 1 0 [])) = .next t :=
  ⟨insert_inv.outside rfl, _, (step_engine rfl).trans (insert_step [])⟩

theorem witness_StepNeverStops : Inv .chip (next [.engine] (filter .query 1 0 [])) := (query_inv (.inl rfl)).outside rfl

theorem witness_ConfigurationIsImmutable :
    ∃ t, step (next [.engine] (filter .release 1 0 [0])) = .next t ∧ t.width ≠ (filter .release 1 0 [0]).width :=
  ⟨_, (step_engine rfl).trans (engineStep_release rfl), by decide⟩

theorem witness_BitsAreNeverCleared :
    Inv .chip (next [.engine] (filter .insert 255 254 [0])) ∧
    ∃ t, step (next [.engine] (filter .insert 255 254 [0])) = .next t ∧ t.ready = true ∧
      bitRead (next [.engine] (filter .insert 255 254 [0])) 0 = some true :=
  ⟨insert_255_inv.outside rfl, _, (step_engine rfl).trans (insert_step []), rfl, rfl⟩

theorem witness_ItemCountGoesUpByOne :
    Inv .chip (next [.engine] (filter .insert 255 254 [0])) ∧
    ∃ t, step (next [.engine] (filter .insert 255 254 [0])) = .next t ∧ t.ready = true ∧ t.itemCount = 1 :=
  ⟨insert_255_inv.outside rfl, _, (step_engine rfl).trans (insert_step []), rfl, rfl⟩

/-- After the INSERT's last probe a QUERY of the same (empty) item is written: the block just before its one probe. -/
def queried : State :=
  { next [.engine] (filter .query 1 0 [0]) with itemCount := 1, response := some (.write .okay) }

/-- The INSERT's last probe, then a QUERY of the same item, accepted and completed. -/
theorem witness_NoFalseNegatives :
    ∃ s t u v : State, Inv .chip s ∧ s.curOp = .insert ∧ step s = .next t ∧ t.busy = false ∧
      SamePeriod t u ∧ u.curOp = .query ∧ itemBytes u u.curLen.toNat = itemBytes s s.curLen.toNat ∧
      step u = .next v ∧ v.busy = false ∧ v.ready = true := by
  have hs : step (next [.engine, .regWrite 0x030 3, .engine] (filter .insert 1 0 [])) =
      .next (insertAdvance (next [.regWrite 0x030 3, .engine] (filter .insert 1 0 [0]))) :=
    (step_engine (rest := [.regWrite 0x030 3, .engine]) rfl).trans (insert_step _)
  have hq : step (insertAdvance (next [.regWrite 0x030 3, .engine] (filter .insert 1 0 [0]))) = .next queried := by
    rw [step_command (rest := [.engine]) rfl]
    unfold writeCmd
    rw [if_neg (by decide), show decode 3 = .ok (.query 0) from by decide]
    show exec (.query 0) _ = _
    rw [exec_idle rfl, processWord_accepts (check_query_accepts.mpr ⟨rfl, Nat.zero_le _⟩)]
    rfl
  have hp : probePosition .chip { queried with schedule := [] } = 0 := position_width_1 _ _
  have hv := (step_engine (s := queried) (rest := []) rfl).trans
    (engineStep_query (v := true) rfl (by rw [hp]; rfl))
  exact ⟨_, _, _, _, insert_inv.outside (sameBlock_scheduled _ _), rfl, hs, rfl, .step (.refl _ rfl) hq rfl, rfl, rfl, hv, rfl, rfl⟩

/-! #### Executions without end -/

/-- A host that reads `ID` for ever, and one engine step among its reads. -/
def readsForEver : Nat → Option Event
  | 1 => some .engine
  | _ => some (.regRead 0x000)

/-- The states of that execution, with a RELEASE in progress at its start. -/
def readStates : Nat → State
  | 0 => filter .release 1 0 [0]
  | 1 => { filter .release 1 0 [0] with response := some (.read .okay idValue) }
  | _ => releaseStep { filter .release 1 0 [0] with response := some (.read .okay idValue) }

theorem witness_FairExecutionsComplete :
    Inv .chip (readStates 0) ∧ Execution readsForEver readStates ∧ WeaklyFair readsForEver readStates ∧
    (readStates 0).busy = true := by
  refine ⟨release_inv, fun n => ?_, fun n hb => ?_, rfl⟩
  · match n with
    | 0 => exact ⟨nofun, (step_regRead (s := offer _ _) rfl).trans rfl⟩
    | 1 => exact ⟨fun _ => rfl, (step_engine rfl).trans (engineStep_release rfl)⟩
    | _ + 2 => exact ⟨nofun, (step_regRead (s := offer _ _) rfl).trans rfl⟩
  · match n with
    | 0 => exact ⟨1, by decide, .inl rfl⟩
    | 1 => exact ⟨1, by decide, .inl rfl⟩
    | _ + 2 => cases hb

/-! #### Beside the block -/

/-- Arithmetic that derives one width and one count. -/
def always (w k : Int) : HostArith := ⟨fun _ _ => w, fun _ _ => k⟩

theorem half_in_range : rateInRange (1 / 2) := by
  constructor <;> norm_num

/-- The host function on the rate 1/2 is the checks of the pair. -/
theorem derive_half [DecidablePred rateInRange] (c : Params) (w k : Int) :
    hostDerive (always w k) c (.number (1 / 2)) 1 = checkPair c (clampToOne w) (clampToOne k) := by
  rw [hostDerive_number, if_neg (not_or.mpr ⟨not_not.mpr half_in_range, one_ne_zero⟩)]
  rfl

/-- Each clause: a rate at both ends of the range, and derived pairs at the edge of each check. -/
theorem witness_HostDerivedPairIsAccepted [DecidablePred rateInRange] :
    (0 : ℝ) ≤ 0 ∧ (1 : ℝ) ≤ 1 ∧ (0 : ℝ) < 1 / 2 ∧ (1 / 2 : ℝ) < 1 ∧
    255 < derivedCount (always 1 256) 1 1 ∧
    (derivedCount (always 4294967296 255) 1 1 ≤ 255 ∧ 2 ^ 32 - 1 < derivedWidth (always 4294967296 255) (1 / 2) 1) ∧
    (derivedWidth (always 65537 255) (1 / 2) 1 ≤ 2 ^ 32 - 1 ∧
      referenceParams.maxWidth < derivedWidth (always 65537 255) (1 / 2) 1) ∧
    derivedWidth (always 65536 255) (1 / 2) 1 ≤ referenceParams.maxWidth ∧
    (hostDerive (always 1 0) .chip (.number (1 / 2)) 1 = .ok (1, 1) ∧
      State.reset.busy = false ∧ State.reset.ready = false) := by
  refine ⟨le_refl _, le_refl _, half_in_range.1, half_in_range.2, ?_, ⟨?_, ?_⟩, ⟨?_, ?_⟩, ?_, ?_, rfl, rfl⟩
  · show 255 < clampToOne 256; decide
  · show clampToOne 255 ≤ 255; decide
  · show 2 ^ 32 - 1 < clampToOne 4294967296; decide
  · show clampToOne 65537 ≤ 2 ^ 32 - 1; decide
  · show 65536 < clampToOne 65537; decide
  · show clampToOne 65536 ≤ 65536; decide
  · rw [derive_half]
    exact checkPair_eq_ok.mpr ⟨by decide, Params.chip.maxWidth_pos, rfl⟩

theorem test_nan_rate_refused [DecidablePred rateInRange] (a : HostArith) (c : Params) :
    hostDerive a c .nan 1 = .error .invalidParameter := rfl

/-- Every real number truncates to some integer. -/
theorem exists_trunc (x : ℝ) : ∃ z : Int, truncates x z := by
  rcases le_or_gt 0 x with h | h
  · exact ⟨⌊x⌋, fun _ => ⟨Int.floor_le x, Int.lt_floor_add_one x⟩, fun h' => absurd h (not_le.mpr h')⟩
  · exact ⟨⌈x⌉, fun h' => absurd h' (not_le.mpr h), fun _ => ⟨Int.le_ceil x, by linarith [Int.ceil_lt_add_one x]⟩⟩

theorem witness_HostSizingExamples : ∃ a : HostArith, exactArith a :=
  ⟨⟨fun f n => (exists_trunc (-(n : ℝ) * Real.log f / Real.log 2 ^ 2)).choose,
    fun m n => (exists_trunc ((m : ℝ) * Real.log 2 / (n : ℝ))).choose⟩,
    fun _ _ _ _ => Exists.choose_spec _, fun _ _ _ => Exists.choose_spec _⟩

theorem witness_HostWidthIsMonotone :
    (∃ a : HostArith, exactArith a) ∧ (0 : ℝ) < 1 / 100 ∧ (1 / 100 : ℝ) ≤ 1 / 2 ∧ (1 / 2 : ℝ) < 1 ∧ 0 < 1 := by
  refine ⟨witness_HostSizingExamples, ?_, ?_, ?_, ?_⟩ <;> norm_num

end Sys2Proof.Tests
end

section
/-! PROOFS. The scope of the model (spec R9, R50, R51): scheduled engine steps, and executions without end. -/

namespace Sys2Proof.Machine

/-! ### Every step keeps the invariant -/

/-- R21: each of the moves a step can be keeps the invariant. -/
theorem Inv.of_moves {s t : State} (h : Inv .chip s) (hm : Moves s t) : Inv .chip t := by
  cases hm with
  | engine b hs _ he => exact (h.outside hs).engineStep he
  | quiet hs _ => exact h.outside hs
  | reset b _ _ ht => exact ht ▸ inv_reset b
  | enable b v _ hs _ _ ht => exact ht ▸ (h.outside hs).enable _
  | clearDone b v _ hs _ _ ht => exact ht ▸ (h.outside hs).clearDone
  | gated b _ v _ hs _ _ _ ht => exact ht ▸ (h.outside hs).violate
  | cfgWidth b v hs hi ht => exact ht ▸ (h.outside hs).cfgWidth ((sameBlock_busy hs).trans hi) v
  | cfgHashCount b v hs hi ht => exact ht ▸ (h.outside hs).cfgHashCount ((sameBlock_busy hs).trans hi) v
  | item b j v hs hi hj ht => exact ht ▸ (h.outside hs).item ((sameBlock_busy hs).trans hi) hj v
  | word b w _ d hs hi _ ht => exact ht ▸ (h.outside hs).processWord ((sameBlock_busy hs).trans hi) d

/-- Whatever the schedule holds, a step keeps the invariant. -/
theorem inv_step {s t : State} (h : Inv .chip s) (hst : step s = .next t) : Inv .chip t :=
  h.of_moves (step_moves hst)

/-- A place of an execution keeps the invariant. -/
theorem inv_place {e : Option Event} {s t : State} (h : Inv .chip s) (hm : moves e s t) : Inv .chip t := by
  cases e with
  | none => exact (show t = s from hm) ▸ h
  | some e => exact inv_step (h.outside (sameBlock_scheduled s [e])) hm.2

/-- The invariant holds at every place of an execution that begins with it. -/
theorem inv_execution {events : Nat → Option Event} {states : Nat → State} (h0 : Inv .chip (states 0))
    (hx : Execution events states) : ∀ n, Inv .chip (states n)
  | 0 => h0
  | n + 1 => inv_place (inv_execution h0 hx n) (hx n)

/-! ### Completion under weak fairness -/

/-- The probes the command in progress may still make; what an engine step makes smaller (R51). -/
def probesLeft (s : State) : Nat := s.hashCount.toNat - s.idx.toNat

/-- While a command is in progress, a place of an execution ends it, or leaves fewer probes, or is no engine step and
leaves as many. -/
theorem Inv.moves_probesLeft {e : Option Event} {s t : State} (h : Inv .chip s) (hb : s.busy = true)
    (hm : moves e s t) :
    t.busy = false ∨ probesLeft t < probesLeft s ∨
      (e ≠ some .engine ∧ t.busy = true ∧ probesLeft t = probesLeft s) := by
  rcases h.moves_busy hb hm with hi | ⟨_, hk, hp, _, hidx⟩ | ⟨he, ho, hk, hidx⟩
  · exact .inl hi
  · have hleft := h.probeLeft hp
    refine .inr (.inl ?_)
    unfold probesLeft
    rw [hk, hidx]
    omega
  · refine .inr (.inr ⟨he, ?_, ?_⟩)
    · exact busy_eq_true.mpr (ho ▸ busy_eq_true.mp hb)
    · unfold probesLeft
      rw [hk, hidx]

/-- From a busy place to one, `d` places on, where the engine moves or the block is idle: somewhere after it the block is
idle or fewer probes are left. Host transactions before that place cannot put it off. -/
theorem progress_before_engine {events : Nat → Option Event} {states : Nat → State}
    (hinv : ∀ n, Inv .chip (states n)) (hx : Execution events states) (d n : Nat) (hb : (states n).busy = true)
    (hd : events (n + d) = some .engine ∨ (states (n + d)).busy = false) :
    ∃ m, n < m ∧ ((states m).busy = false ∨ probesLeft (states m) < probesLeft (states n)) := by
  induction d generalizing n with
  | zero =>
    have he : events n = some .engine := hd.resolve_right (by simp [hb])
    rcases (hinv n).moves_probesLeft hb (hx n) with hi | hless | ⟨hne, _⟩
    · exact ⟨n + 1, n.lt_succ_self, .inl hi⟩
    · exact ⟨n + 1, n.lt_succ_self, .inr hless⟩
    · exact absurd he hne
  | succ d ih =>
    rcases (hinv n).moves_probesLeft hb (hx n) with hi | hless | ⟨_, hb', hsame⟩
    · exact ⟨n + 1, n.lt_succ_self, .inl hi⟩
    · exact ⟨n + 1, n.lt_succ_self, .inr hless⟩
    · obtain ⟨m, hm, hprog⟩ := ih (n + 1) hb' (by rwa [Nat.add_right_comm])
      exact ⟨m, Nat.lt_of_succ_lt hm, hsame ▸ hprog⟩

/-- Under weak fairness a command in progress comes to its end: by induction on the probes it may still make. -/
theorem fair_completes {events : Nat → Option Event} {states : Nat → State} (hinv : ∀ n, Inv .chip (states n))
    (hx : Execution events states) (hf : WeaklyFair events states) (n : Nat) (hb : (states n).busy = true) :
    ∃ m, n < m ∧ (states m).busy = false := by
  induction hk : probesLeft (states n) using Nat.strong_induction_on generalizing n with
  | _ k ih =>
    obtain ⟨m, hnm, hm⟩ := hf n hb
    obtain ⟨d, rfl⟩ := Nat.exists_eq_add_of_le hnm
    obtain ⟨m, hlt, hprog⟩ := progress_before_engine hinv hx d n hb hm
    cases hbm : (states m).busy with
    | false => exact ⟨m, hlt, hbm⟩
    | true =>
      have hless : probesLeft (states m) < k := hk ▸ hprog.resolve_left (by simp [hbm])
      obtain ⟨m', hlt', hi⟩ := ih _ hless m hbm rfl
      exact ⟨m', hlt.trans hlt', hi⟩

/-! ### The statements -/

/-- Settles O56: the invariant holds at every place, and each engine step that fairness grants leaves fewer probes or ends
the command, which bounds how many it can take. -/
theorem fairExecutionsComplete : Obligations.FairExecutionsComplete := by
  intro events states h0 hx hf
  have hinv := inv_execution h0 hx
  exact ⟨hinv, fair_completes hinv hx hf⟩

/-- Settles O8, by the laws of the scheduled, the unscheduled and the idle engine step. -/
theorem engineEventsAndIdleSteps : Obligations.EngineEventsAndIdleSteps :=
  ⟨fun _ _ h => step_engine h, fun _ h => step_unscheduled h, fun _ h => engineStep_idle h⟩

end Sys2Proof.Machine
end

section
/-! PROOFS. The invariant (spec R21): it holds after reset, every step keeps it, and no step from it stops. -/

namespace Sys2Proof.Machine

/-! ### Every step goes on -/

/-- A word written to `CMD` is always processed or dropped (R106, R78). -/
theorem writeCmd_goes_on (w : Word) (s : State) : ∃ t, writeCmd .chip exec w s = .next t := by
  unfold writeCmd
  split
  · exact ⟨_, rfl⟩
  split
  · exact ⟨_, exec_eq _ s⟩
  · exact ⟨_, rfl⟩

/-- Every write is answered (R75): the only branch that is not plainly a next state is that of `CMD`. -/
theorem regWrite_goes_on (off : Nat) (v : Word) (s : State) : ∃ t, regWrite .chip exec off v s = .next t := by
  by_cases ho : off = offCmd
  · subst ho
    exact writeCmd_goes_on v _
  · unfold regWrite
    simp only [if_neg ho, ← apply_ite Host.Outcome.next]
    exact ⟨_, rfl⟩

/-- A step of a state that meets the invariant goes on: only an engine step could stop, and it does not (R50, R204). -/
theorem Inv.step_goes_on {s : State} (h : Inv .chip s) : ∃ t, step s = .next t := by
  cases hs : s.schedule with
  | nil => rw [step_unscheduled hs]; exact h.engine_goes_on
  | cons e rest =>
    cases e with
    | regRead off => exact ⟨_, step_regRead hs⟩
    | regWrite off v => rw [step_regWrite hs]; exact regWrite_goes_on off v _
    | engine => rw [step_engine hs]; exact (h.outside (sameBlock_scheduled s rest)).engine_goes_on
    | reset => exact ⟨_, step_reset hs⟩

/-- Settles O50: `inv_step`, one lemma per move. -/
theorem stepKeepsInv : Obligations.StepKeepsInv := fun _ _ h hst => inv_step h hst

/-- Settles O51: a step goes on, and what it answers meets the invariant. -/
theorem stepNeverStops : Obligations.StepNeverStops := by
  intro s h
  obtain ⟨t, ht⟩ := h.step_goes_on
  exact ⟨t, ht, inv_step h ht⟩

/-- Settles O49: the reset state is the block reset in itself. -/
theorem resetMeetsInv : Obligations.ResetMeetsInv := inv_reset State.reset

end Sys2Proof.Machine
end

section
/-! PROOFS. The registers (spec 10_state.md, section 2): what a read of each answers and what a write of each does. -/

namespace Sys2Proof.Machine

/-- A word is the number it holds. -/
theorem word_ofNat_toNat (w : Word) : BitVec.ofNat 32 w.toNat = w :=
  (BitVec.ofNat_toNat 32 w).trans (BitVec.setWidth_eq w)

/-! ### Reads and ignored writes -/

/-- A read of a control register answers its value and changes nothing (R74, R79). -/
theorem readsAs_of_controlRegister {off : Nat} {value : State → Word} (ha : offsetInvalid off = false)
    (hv : ∀ s, controlRegister .chip s off = some (value s)) : readsAs off value := by
  intro s rest hs
  have answer : regReadAnswer .chip s off = .read .okay (value s) := by simp [regReadAnswer, ha, hv s]
  rw [step_regRead hs, answer]

/-- A write to a read-only register is ignored (R75, R77). -/
theorem writeIgnored_of_readOnly {off : Nat} (ha : offsetInvalid off = false) (hr : offsetReadOnly off = true) :
    writeIgnored off := by
  intro s v rest hs
  rw [step_regWrite hs]
  simp [regWrite, ha, hr, respond]

/-! ### The writable registers (R25, R26, R28, R29, R34) -/

/-- `s` with the write taken off its schedule and answered `OKAY`. -/
def written (s : State) (rest : List Event) : State :=
  { s with schedule := rest, response := some (.write .okay) }

section Writes

variable {s : State} {v : Word} {rest : List Event}

theorem step_writeCtrl (h : s.schedule = .regWrite 0x00C v :: rest) :
    step s = .next (writeCtrl v (written s rest)) := step_regWrite h

theorem step_writeStatus (h : s.schedule = .regWrite 0x010 v :: rest) :
    step s = .next (writeStatus v (written s rest)) := step_regWrite h

theorem step_writeCfgWidth (h : s.schedule = .regWrite 0x018 v :: rest) :
    step s = .next (writeCfgWidth v (written s rest)) := step_regWrite h

theorem step_writeCfgHashCount (h : s.schedule = .regWrite 0x01C v :: rest) :
    step s = .next (writeCfgHashCount v (written s rest)) :=
  step_regWrite h

theorem step_writeItem {j : Nat} (hj : 4 * j < Params.chip.itemMax)
    (h : s.schedule = .regWrite (0x100 + 4 * j) v :: rest) :
    step s = .next (writeItem (4 * j) v (written s rest)) :=
  (step_regWrite h).trans (regWrite_item hj v _)

theorem writeCtrl_reset (h : v.getLsbD 1 = true) : writeCtrl v s = resetBlock s := if_pos h

theorem writeCtrl_enable (h : v.getLsbD 1 = false) : writeCtrl v s = { s with ie := v.getLsbD 0 } :=
  if_neg (by rw [h]; exact Bool.false_ne_true)

theorem writeStatus_eq (v : Word) (s : State) :
    writeStatus v s = { s with done := if v.getLsbD 1 then false else s.done } := by
  unfold writeStatus
  split <;> rfl

theorem writeCmd_decoded {c : Params} {ex : Instr → State → Result} {i : Instr} (hi : s.busy = false)
    (hd : decode v = .ok i) : writeCmd c ex v s = ex i s := by
  simp [writeCmd, hi, hd]

end Writes

/-- Settles O6: an idle block decodes the word and runs it. -/
theorem commandStepRunsDecodedInstruction : Obligations.CommandStepRunsDecodedInstruction :=
  fun _ _ _ _ hs hi hd => (step_command hs).trans (writeCmd_decoded hi hd)

/-- Settles O29: three registers of `controlRegister`, all of them read-only. -/
theorem identityRegisters : Obligations.IdentityRegisters :=
  ⟨readsAs_of_controlRegister (by decide) fun _ => rfl, writeIgnored_of_readOnly (by decide) (by decide),
    readsAs_of_controlRegister (by decide) fun _ => rfl, writeIgnored_of_readOnly (by decide) (by decide),
    readsAs_of_controlRegister (by decide) fun _ => rfl, writeIgnored_of_readOnly (by decide) (by decide)⟩

/-- `x[31:0]` of a 64-bit value, as a number. -/
theorem extract_low_eq (x : BitVec 64) : x.extractLsb' 0 32 = BitVec.ofNat 32 x.toNat := by
  simp [BitVec.extractLsb']

/-- `x[63:32]` of a 64-bit value, as a number. -/
theorem extract_high_eq (x : BitVec 64) : x.extractLsb' 32 32 = BitVec.ofNat 32 (x.toNat / 2 ^ 32) := by
  simp [BitVec.extractLsb', Nat.shiftRight_eq_div_pow]

/-- Settles O30: the count is read in two halves, `hash_count` widened with zeros. -/
theorem filterRegisters : Obligations.FilterRegisters :=
  ⟨readsAs_of_controlRegister (by decide) fun _ => rfl, writeIgnored_of_readOnly (by decide) (by decide),
    readsAs_of_controlRegister (by decide) fun s => congrArg some (BitVec.ofNat_toNat 32 _).symm,
    writeIgnored_of_readOnly (by decide) (by decide),
    readsAs_of_controlRegister (by decide) fun s => congrArg some (extract_low_eq s.itemCount),
    writeIgnored_of_readOnly (by decide) (by decide),
    readsAs_of_controlRegister (by decide) fun s => congrArg some (extract_high_eq s.itemCount),
    writeIgnored_of_readOnly (by decide) (by decide)⟩

/-- Settles O31: `err_code` and `idx` are widened with zeros. -/
theorem outcomeRegisters : Obligations.OutcomeRegisters :=
  ⟨readsAs_of_controlRegister (by decide) fun s => congrArg some (BitVec.ofNat_toNat 32 _).symm,
    writeIgnored_of_readOnly (by decide) (by decide),
    readsAs_of_controlRegister (by decide) fun s => congrArg some (BitVec.ofNat_toNat 32 _).symm,
    writeIgnored_of_readOnly (by decide) (by decide),
    readsAs_of_controlRegister (by decide) fun _ => rfl⟩

/-! ### `CTRL` and `STATUS` -/

/-- Settles O32: the two cases of `writeCtrl`. -/
theorem ctrlRegister : Obligations.CtrlRegister := by
  have widened : ∀ b : Bool, (bit b).setWidth 32 = if b then 1 else 0 := by decide
  refine ⟨readsAs_of_controlRegister (by decide) fun s => congrArg some (widened s.ie), fun s v rest hs => ?_⟩
  exact ⟨fun hv => (step_writeCtrl hs).trans (congrArg _ (writeCtrl_reset hv)),
    fun hv => (step_writeCtrl hs).trans (congrArg _ (writeCtrl_enable hv))⟩

/-- A flag appended below a word. -/
theorem append_bit_toNat {n : Nat} (x : BitVec n) (b : Bool) : (x ++ bit b).toNat = 2 * x.toNat + b.toNat := by
  rw [BitVec.toNat_append, Nat.shiftLeft_eq, Nat.mul_comm, ← Nat.two_pow_add_eq_or_of_lt (bit b).isLt]
  simp [bit]

/-- `STATUS` as a number: its six flags in bits 0 to 5 (R26). -/
theorem statusWord_toNat (s : State) :
    (statusWord s).toNat = s.busy.toNat + 2 * s.done.toNat + 4 * s.error.toNat + 8 * s.ready.toNat +
      16 * s.hit.toNat + 32 * s.viol.toNat := by
  have zero : (0 : BitVec 26).toNat = 0 := rfl
  simp only [statusWord, append_bit_toNat, zero]
  omega

/-- Settles O33: the flags by `statusWord_toNat`, and the write for every value of bit 1. -/
theorem statusRegister : Obligations.StatusRegister := by
  refine ⟨readsAs_of_controlRegister (by decide) fun s => congrArg some ?_, fun s v rest hs => ?_⟩
  · rw [← statusWord_toNat s]
    exact (word_ofNat_toNat _).symm
  · exact (step_writeStatus hs).trans (congrArg _ (writeStatus_eq v (written s rest)))

/-! ### The staging registers and the item buffer -/

/-- Settles O34: read whole; a write stores while idle and is gated while busy. -/
theorem stagingRegisters : Obligations.StagingRegisters := by
  refine ⟨readsAs_of_controlRegister (by decide) fun _ => rfl, readsAs_of_controlRegister (by decide) fun _ => rfl,
    fun s v rest => ⟨fun hs => ⟨fun hi => ?_, fun hb => ?_⟩, fun hs => ⟨fun hi => ?_, fun hb => ?_⟩⟩⟩
  · exact (step_writeCfgWidth hs).trans (congrArg _ (writeCfgWidth_idle (s := written s rest) hi v))
  · exact (step_writeCfgWidth hs).trans (congrArg _ (writeCfgWidth_busy (s := written s rest) hb v))
  · exact (step_writeCfgHashCount hs).trans (congrArg _ (writeCfgHashCount_idle (s := written s rest) hi v))
  · exact (step_writeCfgHashCount hs).trans (congrArg _ (writeCfgHashCount_busy (s := written s rest) hb v))

/-- Settles O35: the four bytes of a word by `readItemWord_toNat` and `memRead_writeItemWord`. -/
theorem itemRegister : Obligations.ItemRegister := by
  intro s j hwf hj
  refine ⟨fun rest hs => ?_, fun v rest hs hi => ?_⟩
  · rw [step_regRead hs, regReadAnswer_item hj, ← readItemWord_toNat, word_ofNat_toNat]
  · have stored := writeItem_idle (s := written s rest) hi (4 * j) v
    refine ⟨_, (step_writeItem hj hs).trans (congrArg _ stored), rfl, fun k hk => ?_, fun n hn => ?_⟩
    · have inside : ¬ (4 * j + k < 4 * j ∨ 4 * j + 4 ≤ 4 * j + k) := by omega
      show (memRead (writeItemWord s.item (4 * j) v) (4 * j + k)).toNat = _
      rw [memRead_writeItemWord hwf, if_neg inside, wordByte_toNat, Nat.add_sub_cancel_left]
    · exact (memRead_writeItemWord hwf (4 * j) v n).trans (if_pos hn)

/-! ### Offsets that name no register -/

theorem offsetIsItem_eq_false {c : Params} {off : Nat} :
    offsetIsItem c off = false ↔ off < 0x100 ∨ 0x100 + c.itemMax ≤ off := by
  rw [offsetIsItem, itemBase, Bool.and_eq_false_iff, decide_eq_false_iff_not, decide_eq_false_iff_not]
  omega

/-- An unmapped offset is invalid, or lies above the control registers and outside the item window (R36). -/
theorem unmapped_cases {c : Params} {off : Nat} (h : offsetUnmapped c off) :
    offsetInvalid off = true ∨ (offsetInvalid off = false ∧ 0x038 ≤ off ∧ offsetIsItem c off = false) := by
  cases hi : offsetInvalid off with
  | true => exact .inl rfl
  | false =>
    obtain ⟨hal, hle⟩ := offsetInvalid_false.mp hi
    have := c.itemMax_le
    refine .inr ⟨rfl, ?_⟩
    rw [offsetIsItem_eq_false]
    rcases h with h | h | h | h <;> omega

section Unmapped

variable {c : Params} {off : Nat}

theorem controlRegister_none (h : 0x038 ≤ off) (s : State) : controlRegister c s off = none := by
  have ne : ∀ k, k < 0x038 → off ≠ k := fun k hk => by omega
  simp [controlRegister, offId, offCapWidth, offCapItem, offCtrl, offStatus, offErr, offCfgWidth, offCfgHashCount,
    offWidth, offHashCount, offItemCountLo, offItemCountHi, offCmd, offProbes, ne]

theorem regReadAnswer_unmapped (h : offsetUnmapped c off) (s : State) : regReadAnswer c s off = .read .error 0 := by
  rcases unmapped_cases h with hi | ⟨hi, hge, hw⟩
  · simp [regReadAnswer, hi]
  · simp [regReadAnswer, hi, controlRegister_none hge, hw]

theorem regWrite_unmapped (h : offsetUnmapped c off) (ex : Instr → State → Result) (v : Word) (s : State) :
    regWrite c ex off v s = .next (respond (.write .error) s) := by
  rcases unmapped_cases h with hi | ⟨hi, hge, hw⟩
  · simp [regWrite, hi]
  · have ne : ∀ k, k < 0x038 → off ≠ k := fun k hk => by omega
    simp [regWrite, hi, hw, offsetReadOnly, offId, offCapWidth, offCapItem, offCtrl, offStatus, offErr, offCfgWidth,
      offCfgHashCount, offWidth, offHashCount, offItemCountLo, offItemCountHi, offCmd, offProbes, ne]

end Unmapped

/-- Settles O36: such an offset reaches the last branch of R74 and R75. -/
theorem unmappedOffsetsAnswerError : Obligations.UnmappedOffsetsAnswerError := by
  intro s off rest hu
  refine ⟨fun hs => ?_, fun v hs => ?_⟩
  · rw [step_regRead hs, regReadAnswer_unmapped hu]
  · rw [step_regWrite hs, regWrite_unmapped hu]
    rfl

end Sys2Proof.Machine
end

section
/-! PROOFS. The end of every command (spec R50, R51). -/

namespace Sys2Proof.Machine

/-! ### The kinds of an engine step -/

/-- What an engine step leads to (R50): a probe that goes on counts itself, and an INSERT's leaves every 1 in the array;
the completing step of INSERT counts the insertion, that of QUERY answers with the last bit read. -/
inductive EngineKind (c : Params) (s : State) : State → Prop where
  | idle : s.busy = false → EngineKind c s s
  | initialised : s.curOp = .init → EngineKind c s (initStep s)
  | released : s.curOp = .release → EngineKind c s (releaseStep s)
  | probed (a : Option BitSet) : s.probing →
      (∀ p, bitIsSet s p → bitIsSet { s with bitArray := a } p) →
      EngineKind c s { s with idx := s.idx + 1, bitArray := a }
  | inserted (a : Option BitSet) : s.curOp = .insert → s.idx + 1 = s.hashCount →
      (∀ p, bitIsSet s p → bitIsSet { s with bitArray := a } p) →
      EngineKind c s (complete { s with idx := s.idx + 1, itemCount := s.itemCount + 1, bitArray := a })
  | answered (v : Bool) : s.curOp = .query → bitRead s (probePosition c s) = some v →
      (v = true → s.idx + 1 = s.hashCount) → EngineKind c s (complete { s with idx := s.idx + 1, hit := v })

/-- After INSERT's last probe the command completes, with the bits it left; after any other it goes on (R141). -/
theorem insertAdvance_withBits (s : State) (a : Option BitSet) :
    insertAdvance { s with bitArray := a } =
      if s.idx + 1 = s.hashCount then
        complete { s with idx := s.idx + 1, itemCount := s.itemCount + 1, bitArray := a }
      else { s with idx := s.idx + 1, bitArray := a } := rfl

theorem queryAdvance_false (s : State) :
    queryAdvance false s = complete { s with idx := s.idx + 1, hit := false } := rfl

theorem queryAdvance_true (s : State) :
    queryAdvance true s =
      if s.idx + 1 = s.hashCount then complete { s with idx := s.idx + 1, hit := true }
      else { s with idx := s.idx + 1 } := rfl

theorem insertAdvance_kind {c : Params} {s : State} (ho : s.curOp = .insert) {b : BitSet} (hb : s.bitArray = some b)
    {p : Nat} (hp : p < s.width.toNat) :
    EngineKind c s (insertAdvance { s with bitArray := some (bitInsert b p) }) := by
  have kept : ∀ q, bitIsSet s q → bitIsSet { s with bitArray := some (bitInsert b p) } q :=
    fun q hq => bitIsSet_after_set hb hp rfl rfl (.inr hq)
  rw [insertAdvance_withBits]
  split
  · next hlast => exact .inserted _ ho hlast kept
  · exact .probed _ (.inl ho) kept

theorem queryAdvance_kind {c : Params} {s : State} (ho : s.curOp = .query) {v : Bool}
    (hv : bitRead s (probePosition c s) = some v) : EngineKind c s (queryAdvance v s) := by
  cases v with
  | false => rw [queryAdvance_false]; exact .answered false ho hv nofun
  | true =>
    rw [queryAdvance_true]
    split
    · next hlast => exact .answered true ho hv fun _ => hlast
    · exact .probed s.bitArray (.inr ho) fun _ h => h

/-- Every engine step is of one of these kinds. -/
theorem engineStep_kind {c : Params} {s t : State} (h : engineStep c s = .next t) : EngineKind c s t := by
  rcases engineStep_cases h with ⟨ho, rfl⟩ | ⟨ho, rfl⟩ | ⟨ho, rfl⟩ | ⟨ho, b, hb, hp, rfl⟩ | ⟨ho, v, hv, rfl⟩
  · exact .idle (busy_eq_false.mpr ho)
  · exact .initialised ho
  · exact .released ho
  · exact insertAdvance_kind ho hb hp
  · exact queryAdvance_kind ho hv

/-- The engine step of a command in progress completes it, INSERT only at its last probe, or makes one probe of it. -/
theorem Inv.engineStep_busy {c : Params} {s t : State} (h : Inv c s) (hb : s.busy = true)
    (he : Machine.engineStep c s = .next t) :
    (t.busy = false ∧ t.done = true ∧ (s.curOp = .insert → s.idx.toNat + 1 = s.hashCount.toNat)) ∨
    (s.probing ∧ t.curOp = s.curOp ∧ t.hashCount = s.hashCount ∧ t.idx.toNat = s.idx.toNat + 1) := by
  cases engineStep_kind he with
  | idle hi => simp [hi] at hb
  | initialised ho => exact .inl ⟨rfl, rfl, by simp [ho]⟩
  | released ho => exact .inl ⟨rfl, rfl, by simp [ho]⟩
  | probed a hp _ => exact .inr ⟨hp, rfl, rfl, idx_succ_toNat (h.probeLeft hp)⟩
  | inserted a ho hlast _ => exact .inl ⟨rfl, rfl, fun _ => (lastProbe_iff (h.probeLeft (.inl ho))).mp hlast⟩
  | answered v ho _ _ => exact .inl ⟨rfl, rfl, by simp [ho]⟩

/-- Settles O27: the step is one that goes on, and either outcome of `Inv.engineStep_busy` is as stated. -/
theorem engineNeverFails : Obligations.EngineNeverFails := by
  intro s h hb
  obtain ⟨t, ht⟩ := h.engine_goes_on
  refine ⟨t, ht, ?_⟩
  rcases h.engineStep_busy hb ht with ⟨hi, _⟩ | ⟨_, _, _, hidx⟩
  · exact .inl hi
  · exact .inr hidx

/-! ### Completion after a number of engine steps -/

/-- The command in progress in `s` completes with engine step `k`, and not before. -/
structure CompletesAfter (c : Params) (k : Nat) (s : State) : Prop where
  completed : ∃ t, engineRun c k s = .next t ∧ t.busy = false ∧ t.done = true
  positive : 1 ≤ k
  busyBefore : ∀ j, j < k → ∃ m, engineRun c j s = .next m ∧ m.busy = true

/-- A command that the next step completes. -/
theorem completesAfter_one {c : Params} {s t : State} (hb : s.busy = true) (he : engineStep c s = .next t)
    (hi : t.busy = false) (hd : t.done = true) : CompletesAfter c 1 s where
  completed := ⟨t, (engineRun_one c s).trans he, hi, hd⟩
  positive := Nat.le_refl 1
  busyBefore j hj := by
    obtain rfl : j = 0 := by omega
    exact ⟨s, rfl, hb⟩

/-- A command that the next step does not complete takes one step more than from there. -/
theorem CompletesAfter.succ {c : Params} {k : Nat} {s t : State} (h : CompletesAfter c k t) (hb : s.busy = true)
    (he : engineStep c s = .next t) : CompletesAfter c (k + 1) s where
  completed := by rw [engineRun_succ he]; exact h.completed
  positive := Nat.le_add_left 1 k
  busyBefore j hj := by
    cases j with
    | zero => exact ⟨s, rfl, hb⟩
    | succ j => rw [engineRun_succ he]; exact h.busyBefore j (by omega)

/-- A command in progress completes, at the latest with its last probe, and INSERT only then (R51). By induction on the
probes left. -/
theorem Inv.probing_completes {c : Params} {s : State} (h : Inv c s) (hp : s.probing) :
    ∃ k, CompletesAfter c k s ∧ k ≤ probesLeft s ∧ (s.curOp = .insert → k = probesLeft s) := by
  induction hn : probesLeft s generalizing s with
  | zero =>
    have := h.probeLeft hp
    unfold probesLeft at hn
    omega
  | succ n ih =>
    have hb := busy_of_probing hp
    obtain ⟨t, ht⟩ := h.engine_goes_on
    rcases h.engineStep_busy hb ht with ⟨hi, hd, hlast⟩ | ⟨_, ho, hk, hidx⟩
    · refine ⟨1, completesAfter_one hb ht hi hd, by omega, fun ho => ?_⟩
      have := hlast ho
      unfold probesLeft at hn
      omega
    · have hpt : t.probing := by unfold State.probing; rwa [ho]
      have hnt : probesLeft t = n := by unfold probesLeft at hn ⊢; rw [hk, hidx]; omega
      obtain ⟨k, hc, hle, hins⟩ := ih (h.engineStep ht) hpt hnt
      exact ⟨k + 1, hc.succ hb ht, by omega, fun hi => by rw [hins (ho.trans hi)]⟩

/-- INIT and RELEASE complete with their one engine step (R123, R126). -/
theorem lifecycle_completes {c : Params} {s : State} (ho : s.curOp = .init ∨ s.curOp = .release) :
    CompletesAfter c 1 s := by
  rcases ho with ho | ho
  · exact completesAfter_one (busy_eq_true.mpr (by rw [ho]; nofun)) (engineStep_init ho) rfl rfl
  · exact completesAfter_one (busy_eq_true.mpr (by rw [ho]; nofun)) (engineStep_release ho) rfl rfl

theorem probing_or_lifecycle {s : State} (hb : s.busy = true) :
    s.probing ∨ s.curOp = .init ∨ s.curOp = .release := by
  unfold State.probing
  cases ho : s.curOp with
  | none => exact absurd ho (busy_eq_true.mp hb)
  | init | insert | query | release => simp

theorem not_probing_of_lifecycle {s : State} (ho : s.curOp = .init ∨ s.curOp = .release) : ¬ s.probing := by
  rcases ho with ho | ho <;> simp [State.probing, ho]

/-- Settles O28: one step for INIT and RELEASE, and `Inv.probing_completes` for INSERT and QUERY. -/
theorem commandsComplete : Obligations.CommandsComplete := by
  intro s h hb
  rcases probing_or_lifecycle hb with hp | ho
  · obtain ⟨k, ⟨⟨t, ht, hi, hd⟩, hpos, hbefore⟩, hle, hins⟩ := h.probing_completes hp
    exact ⟨k, t, ht, hi, hd, hpos, hbefore, fun ho => absurd hp (not_probing_of_lifecycle ho), hins, fun _ => hle⟩
  · obtain ⟨⟨t, ht, hi, hd⟩, hpos, hbefore⟩ := lifecycle_completes (c := .chip) ho
    have hnot := not_probing_of_lifecycle ho
    exact ⟨1, t, ht, hi, hd, hpos, hbefore, fun _ => rfl, fun hp => absurd (.inl hp) hnot,
      fun hp => absurd (.inr hp) hnot⟩

end Sys2Proof.Machine
end

section
/-! PROOFS. The rules of the flags, of the configuration, of the count and of the bits (spec R21, R39 to R43, R53): what
each of the four kinds of step does to them. -/

namespace Sys2Proof.Machine

/-! ### Four kinds of step -/

/-- A transaction that neither runs a command word nor resets: it reaches the enable, the staging registers and the item
buffer, may clear `done` and may mark a violation (R74, R75). -/
structure HostAccess (s t : State) : Prop where
  frame : t = { s with
    ie := t.ie, done := t.done, viol := t.viol, cfgWidth := t.cfgWidth, cfgHashCount := t.cfgHashCount,
    item := t.item, schedule := t.schedule, response := t.response }
  doneCause : t.done = s.done ∨
    (t.done = false ∧ ∃ v rest, s.schedule = .regWrite 0x010 v :: rest ∧ v.getLsbD 1 = true)
  violCause : t.viol = s.viol ∨
    (t.viol = true ∧ s.busy = true ∧ ∃ off v rest, s.schedule = .regWrite off v :: rest ∧ offsetGated .chip off)
  ieCause : t.ie = s.ie ∨ t.done = s.done

/-- The kinds of a step: `s` with another schedule and another answer is what the engine, a reset or a word acts on. -/
inductive StepKind (s t : State) : Prop where
  | engine (l : List Event) (r : Option Response) :
      engineStep .chip { s with schedule := l, response := r } = .next t → StepKind s t
  | reset (b : State) : resetIsNext s → t = resetBlock b → StepKind s t
  | word (l : List Event) (r : Option Response) (d : Option Instr) : s.busy = false →
      (∃ w rest, s.schedule = .regWrite 0x030 w :: rest) →
      t = processWord .chip d { s with schedule := l, response := r } → StepKind s t
  | access : HostAccess s t → StepKind s t

theorem sameBlock.exists_eq {s b : State} (h : sameBlock s b) : ∃ l r, b = { s with schedule := l, response := r } :=
  ⟨_, _, h⟩

/-- The invariant does not depend on the schedule and the answer. -/
theorem Inv.elsewhere {c : Params} {s : State} (h : Inv c s) (l : List Event) (r : Option Response) :
    Inv c { s with schedule := l, response := r } := h.outside rfl

/-- Every step is of one of the four kinds. -/
theorem step_kind {s t : State} (h : step s = .next t) : StepKind s t := by
  cases step_moves h with
  | engine b hs _ he =>
    obtain ⟨l, r, rfl⟩ := hs.exists_eq
    exact .engine l r he
  | reset b _ hr ht => exact .reset b hr ht
  | word b w rest d hs hi hsch ht =>
    obtain ⟨l, r, rfl⟩ := hs.exists_eq
    exact .word l r d hi ⟨w, rest, hsch⟩ ht
  | quiet hs _ =>
    obtain ⟨l, r, rfl⟩ := hs.exists_eq
    exact .access ⟨rfl, .inl rfl, .inl rfl, .inl rfl⟩
  | enable b v rest hs _ _ ht =>
    obtain ⟨l, r, rfl⟩ := hs.exists_eq
    subst ht
    exact .access ⟨rfl, .inl rfl, .inl rfl, .inr rfl⟩
  | clearDone b v rest hs hsch hv ht =>
    obtain ⟨l, r, rfl⟩ := hs.exists_eq
    subst ht
    exact .access ⟨rfl, .inr ⟨rfl, v, rest, hsch, hv⟩, .inl rfl, .inl rfl⟩
  | gated b off v rest hs hb hsch hg ht =>
    obtain ⟨l, r, rfl⟩ := hs.exists_eq
    subst ht
    exact .access ⟨rfl, .inl rfl, .inr ⟨rfl, hb, off, v, rest, hsch, hg⟩, .inl rfl⟩
  | cfgWidth b v hs _ ht =>
    obtain ⟨l, r, rfl⟩ := hs.exists_eq
    subst ht
    exact .access ⟨rfl, .inl rfl, .inl rfl, .inl rfl⟩
  | cfgHashCount b v hs _ ht =>
    obtain ⟨l, r, rfl⟩ := hs.exists_eq
    subst ht
    exact .access ⟨rfl, .inl rfl, .inl rfl, .inl rfl⟩
  | item b j v hs _ _ ht =>
    obtain ⟨l, r, rfl⟩ := hs.exists_eq
    subst ht
    exact .access ⟨rfl, .inl rfl, .inl rfl, .inl rfl⟩

/-- A command word is rejected with a code of R190 or accepted (R106, R203). -/
theorem processWord_cases (c : Params) (d : Option Instr) (s : State) :
    (∃ code, code ≠ 0 ∧ codeProduced code ∧ processWord c d s = rejectedWith code s) ∨
    ∃ op len, processWord c d s = acceptedAs op len s := by
  cases hc : firstFailingCheck c d s with
  | some e =>
    obtain ⟨h0, hk⟩ := errorCode_of_check hc
    exact .inl ⟨_, h0, hk, processWord_rejects hc⟩
  | none => exact .inr ⟨_, _, processWord_accepts hc⟩

/-- A command word reaches the outcome and the sequencer only (R106, R203). -/
theorem processWord_frame (c : Params) (d : Option Instr) (s : State) :
    processWord c d s = { s with
      hit := false, done := (processWord c d s).done, error := (processWord c d s).error,
      errCode := (processWord c d s).errCode, curOp := (processWord c d s).curOp,
      curLen := (processWord c d s).curLen, idx := (processWord c d s).idx } := by
  rcases processWord_cases c d s with ⟨_, _, _, e⟩ | ⟨_, _, e⟩ <;> rw [e] <;> rfl

/-! ### What an engine step reaches -/

section Engine

variable {c : Params} {s t : State}

/-- Between its first and its completing step a command changes the probe count and the bits only; the completing step
clears `busy` and sets `done` (R46, R52). -/
theorem engineStep_goes_on_or_completes (h : engineStep c s = .next t) :
    t = { s with idx := t.idx, bitArray := t.bitArray } ∨ (s.busy = true ∧ t.busy = false ∧ t.done = true) := by
  cases engineStep_kind h with
  | idle _ => exact .inl rfl
  | initialised ho => exact .inr ⟨by simp [State.busy, ho], rfl, rfl⟩
  | released ho => exact .inr ⟨by simp [State.busy, ho], rfl, rfl⟩
  | probed a _ _ => exact .inl rfl
  | inserted a ho _ _ => exact .inr ⟨by simp [State.busy, ho], rfl, rfl⟩
  | answered v ho _ _ => exact .inr ⟨by simp [State.busy, ho], rfl, rfl⟩

/-- No engine step reaches `ie`, `viol`, the error, the staging registers or the item buffer. -/
theorem engineStep_frame (h : engineStep c s = .next t) :
    t = { s with
      done := t.done, ready := t.ready, hit := t.hit, width := t.width, hashCount := t.hashCount,
      itemCount := t.itemCount, idx := t.idx, curOp := t.curOp, curLen := t.curLen, bitArray := t.bitArray } := by
  cases engineStep_kind h <;> rfl

theorem engineStep_ie (h : engineStep c s = .next t) : t.ie = s.ie := by rw [engineStep_frame h]

theorem engineStep_viol (h : engineStep c s = .next t) : t.viol = s.viol := by rw [engineStep_frame h]

theorem engineStep_error (h : engineStep c s = .next t) : t.error = s.error := by rw [engineStep_frame h]

/-- `ready`, `width` and `hash_count` are the business of INIT and RELEASE alone (R41, R127). -/
theorem engineStep_configuration (h : engineStep c s = .next t) :
    (s.curOp = .init ∧ t = initStep s) ∨ (s.curOp = .release ∧ t = releaseStep s) ∨
    (t.ready = s.ready ∧ t.width = s.width ∧ t.hashCount = s.hashCount) := by
  cases engineStep_kind h with
  | initialised ho => exact .inl ⟨ho, rfl⟩
  | released ho => exact .inr (.inl ⟨ho, rfl⟩)
  | idle | probed | inserted | answered => exact .inr (.inr ⟨rfl, rfl, rfl⟩)

/-- An engine step that raises `hit` is the last one of a QUERY, and every probe of its item reads 1 (R42, R151). -/
theorem Inv.engineStep_hit_rises (h : Inv c s) (he : Machine.engineStep c s = .next t) (h0 : s.hit = false)
    (h1 : t.hit = true) :
    s.curOp = .query ∧ t.busy = false ∧ t.done = true ∧ t.idx = t.hashCount ∧
      allProbesSet c s (itemBytes s s.curLen.toNat) := by
  have rises : t.hit ≠ s.hit := by simp [h0, h1]
  cases engineStep_kind he with
  | idle | initialised | released | probed | inserted => exact absurd rfl rises
  | answered v ho hv hlast =>
    obtain rfl : v = true := h1
    have hlast := hlast rfl
    have hcount := (lastProbe_iff (h.probeLeft (.inr ho))).mp hlast
    refine ⟨ho, rfl, rfl, hlast, ?_⟩
    unfold allProbesSet
    rw [← hcount]
    exact probes_below_succ (h.probesSet (.inr ho)) (probePosition_eq c s ▸ hv)

/-- While a filter stands, an engine step clears no bit (R72). -/
theorem Inv.engineStep_bit (h : Inv c s) (he : Machine.engineStep c s = .next t) (hs : s.ready = true)
    (ht : t.ready = true) {p : Nat} (hp : bitIsSet s p) : bitIsSet t p := by
  cases engineStep_kind he with
  | initialised ho => simp [h.initUnready ho] at hs
  | released _ => cases ht
  | probed _ _ kept => exact kept p hp
  | inserted _ _ _ kept => exact kept p hp
  | idle | answered => exact hp

/-- While a filter stands, an engine step counts an INSERT it completes and nothing else (R141). -/
theorem Inv.engineStep_itemCount (h : Inv c s) (he : Machine.engineStep c s = .next t) (hs : s.ready = true)
    (ht : t.ready = true) :
    t.itemCount = s.itemCount ∨
    (t.itemCount.toNat = s.itemCount.toNat + 1 ∧ s.curOp = .insert ∧ t.busy = false ∧ t.done = true) := by
  cases engineStep_kind he with
  | initialised ho => simp [h.initUnready ho] at hs
  | released _ => cases ht
  | inserted _ ho _ _ => exact .inr ⟨itemCount_succ_toNat (h.countRoom ho), ho, rfl, rfl⟩
  | idle | probed | answered => exact .inl rfl

end Engine

/-! ### The flags -/

/-- A flag that a step keeps neither rises nor falls. -/
theorem kept_flag {old new a : Bool} {P Q : Prop} (e : new = old) :
    (old = a → new = !a → P) ∧ (old = !a → new = a → Q) := by
  rw [e]
  exact ⟨fun h0 h1 => by simp [h0] at h1, fun h0 h1 => by simp [h0] at h1⟩

/-- Settles O40: only a gated write sets `viol`, and only a reset clears it. -/
theorem violIsSticky : Obligations.ViolIsSticky := by
  intro s t hst
  have cause : t.viol = s.viol ∨ (t.viol = false ∧ resetIsNext s) ∨ (t.viol = true ∧ s.busy = true ∧
      ∃ off v rest, s.schedule = .regWrite off v :: rest ∧ offsetGated .chip off) := by
    cases step_kind hst with
    | engine l r he => exact .inl (engineStep_viol he :)
    | reset b hr ht => exact .inr (.inl ⟨by rw [ht]; rfl, hr⟩)
    | word l r d _ _ ht => exact .inl (by rw [ht, processWord_frame])
    | access ha => exact ha.violCause.imp_right .inr
  rcases cause with e | ⟨e, hr⟩ | ⟨e, hg⟩
  · exact kept_flag e
  · exact ⟨fun _ _ => hr, fun _ h1 => by simp [e] at h1⟩
  · exact ⟨fun _ h1 => by simp [e] at h1, fun _ _ => hg⟩

/-- Settles O41: completion and rejection set `done`; the other steps keep it or are those named. -/
theorem doneRule : Obligations.DoneRule := by
  intro s t hst
  cases step_kind hst with
  | engine l r he =>
    have herr : t.error = s.error := (engineStep_error he :)
    rcases engineStep_goes_on_or_completes he with e | ⟨hb, hi, hd⟩
    · have e : t.done = s.done := by rw [e]
      exact kept_flag e
    · exact ⟨fun _ _ => .inl ⟨hb, hi, herr⟩, fun _ h1 => by simp [hd] at h1⟩
  | reset b hr ht => exact ⟨fun _ h1 => by simp [ht] at h1, fun _ _ => .inl hr⟩
  | word l r d hi hsch ht =>
    obtain ⟨w, rest, hsch⟩ := hsch
    refine ⟨fun _ h1 => .inr ?_, fun _ _ => .inr (.inr ⟨w, rest, hsch, hi⟩)⟩
    rcases processWord_cases .chip d { s with schedule := l, response := r } with ⟨code, h0, _, e⟩ | ⟨_, _, e⟩
    · rw [ht, e]
      exact ⟨hi, hi, rfl, h0⟩
    · rw [ht, e] at h1
      cases h1
  | access ha =>
    rcases ha.doneCause with e | ⟨e, hw⟩
    · exact kept_flag e
    · exact ⟨fun _ h1 => by simp [e] at h1, fun _ _ => .inr (.inl hw)⟩

/-- Settles O42: no other kind of step raises `hit` than the engine's, and that by `Inv.engineStep_hit_rises`. -/
theorem hitOnlyByFullQuery : Obligations.HitOnlyByFullQuery := by
  intro s t h hst h0 h1
  cases step_kind hst with
  | engine l r he => exact (h.elsewhere l r).engineStep_hit_rises he h0 h1
  | reset b _ ht => simp [ht] at h1
  | word l r d _ _ ht => rw [ht, processWord_frame] at h1; cases h1
  | access ha => rw [ha.frame] at h1; simp [h0] at h1

/-- Settles O44: the engine and the other transactions keep `error`; a reset and an accepted word clear it. -/
theorem errorOnlyByRejection : Obligations.ErrorOnlyByRejection := by
  intro s t hst h0 h1
  cases step_kind hst with
  | engine l r he =>
    have e : t.error = s.error := (engineStep_error he :)
    simp [e, h0] at h1
  | reset b _ ht => simp [ht] at h1
  | word l r d hi hsch ht =>
    rcases processWord_cases .chip d { s with schedule := l, response := r } with ⟨code, hc0, hk, e⟩ | ⟨_, _, e⟩
    · rw [ht, e]
      exact ⟨hi, hsch, rfl, hc0, hk⟩
    · rw [ht, e] at h1
      cases h1
  | access ha => rw [ha.frame] at h1; simp [h0] at h1

/-- A step in which `done` rises keeps `ie` (R53): completion and rejection do not reach it. -/
theorem ie_of_done_rises {s t : State} (hst : step s = .next t) (h0 : s.done = false) (h1 : t.done = true) :
    t.ie = s.ie := by
  cases step_kind hst with
  | engine l r he => exact (engineStep_ie he :)
  | reset b _ ht => simp [ht] at h1
  | word l r d _ _ ht => rw [ht, processWord_frame]
  | access ha => exact ha.ieCause.resolve_right (by simp [h0, h1])

/-- Settles O45: the level is read off the state after each of the steps R207 names. -/
theorem interruptLevel : Obligations.InterruptLevel := by
  refine ⟨fun _ => rfl, fun s t hst h0 h1 => ⟨?_, ie_of_done_rises hst h0 h1⟩, fun s v rest hs hv => ?_,
    fun s v rest hs hv => ?_⟩
  · simp [irq, h1]
  · exact ⟨_, (step_writeCtrl hs).trans (congrArg _ (writeCtrl_enable hv)), rfl, rfl⟩
  · refine ⟨_, (step_writeStatus hs).trans (congrArg _ (writeStatus_eq v _)), ?_⟩
    simp only [irq, hv, if_true, Bool.and_false]

/-! ### The configuration, the count and the bits -/

/-- What a step does to `ready` and the configuration: INIT or RELEASE completes, a reset drops the filter, and every
other step keeps all three (R21(c), R41). -/
theorem step_configuration {s t : State} (hst : step s = .next t) :
    (s.curOp = .init ∧ t.ready = true ∧ t.busy = false ∧ t.done = true) ∨
    (s.curOp = .release ∧ t.ready = false ∧ t.busy = false ∧ t.done = true) ∨
    (resetIsNext s ∧ t.ready = false) ∨ (t.ready = s.ready ∧ t.width = s.width ∧ t.hashCount = s.hashCount) := by
  cases step_kind hst with
  | engine l r he =>
    rcases engineStep_configuration he with ⟨ho, rfl⟩ | ⟨ho, rfl⟩ | kept
    · exact .inl ⟨ho, rfl, rfl, rfl⟩
    · exact .inr (.inl ⟨ho, rfl, rfl, rfl⟩)
    · exact .inr (.inr (.inr kept))
  | reset b hr ht => exact .inr (.inr (.inl ⟨hr, by rw [ht]; rfl⟩))
  | word l r d _ _ ht => exact .inr (.inr (.inr (by rw [ht, processWord_frame]; exact ⟨rfl, rfl, rfl⟩)))
  | access ha => exact .inr (.inr (.inr (by rw [ha.frame]; exact ⟨rfl, rfl, rfl⟩)))

/-- Settles O43, case by case of `step_configuration`. -/
theorem readyRule : Obligations.ReadyRule := by
  intro s t hst
  rcases step_configuration hst with ⟨ho, e, hc⟩ | ⟨ho, e, hc⟩ | ⟨hr, e⟩ | ⟨e, _⟩
  · exact ⟨fun _ _ => ⟨ho, hc⟩, fun _ h1 => by simp [e] at h1⟩
  · exact ⟨fun _ h1 => by simp [e] at h1, fun _ _ => .inr ⟨ho, hc⟩⟩
  · exact ⟨fun _ h1 => by simp [e] at h1, fun _ _ => .inl hr⟩
  · exact kept_flag e

/-- Settles O52, case by case of `step_configuration`. -/
theorem configurationIsImmutable : Obligations.ConfigurationIsImmutable := by
  intro s t hst hne
  rcases step_configuration hst with ⟨ho, _, hc⟩ | ⟨ho, _, hc⟩ | ⟨hr, _⟩ | ⟨_, hw, hk⟩
  · exact .inr ⟨.inl ho, hc⟩
  · exact .inr ⟨.inr ho, hc⟩
  · exact .inl hr
  · exact absurd hne (by simp [hw, hk])

/-- Settles O53: INSERT adds bits, INIT and RELEASE and resets end the period, and nothing else reaches the array. -/
theorem bitsAreNeverCleared : Obligations.BitsAreNeverCleared := by
  intro s t p h hst hs ht hp
  cases step_kind hst with
  | engine l r he => exact (h.elsewhere l r).engineStep_bit he hs ht hp
  | reset b _ e => simp [e] at ht
  | word l r d _ _ e => rw [e, processWord_frame]; exact hp
  | access ha => rw [ha.frame]; exact hp

/-- Settles O54: the completing step of INSERT counts, and nothing else within a period reaches the count. -/
theorem itemCountGoesUpByOne : Obligations.ItemCountGoesUpByOne := by
  intro s t h hst hs ht
  cases step_kind hst with
  | engine l r he => exact (h.elsewhere l r).engineStep_itemCount he hs ht
  | reset b _ e => simp [e] at ht
  | word l r d _ _ e => exact .inl (by rw [e, processWord_frame])
  | access ha => exact .inl (by rw [ha.frame])

end Sys2Proof.Machine
end

section
/-! PROOFS. What the transactions leave unchanged (spec R78, R79, R106): a command word in any state, a write to a
busy-gated register while busy, and any read. -/

namespace Sys2Proof.Machine

/-! ### The `CMD` write -/

section CommandWord

variable {i : Instr} {s t : State}

/-- A command word is dropped while busy, else rejected or accepted (R78, R106, R203). -/
theorem exec_cases (h : exec i s = .next t) :
    (s.busy = true ∧ t = violate s) ∨
    (s.busy = false ∧ ((∃ code, t = rejectedWith code s) ∨ (t.busy = true ∧ ∃ op len, t = acceptedAs op len s))) := by
  rw [exec_eq] at h
  injection h with h
  subst h
  cases hb : s.busy with
  | true => exact .inl ⟨rfl, commandWord_busy hb⟩
  | false =>
    refine .inr ⟨rfl, ?_⟩
    rw [commandWord_idle hb]
    cases hc : firstFailingCheck .chip (some i) s with
    | some e => exact .inl ⟨_, processWord_rejects hc⟩
    | none =>
      rw [processWord_accepts hc]
      exact .inr ⟨busy_acceptedAs i _ s, _, _, rfl⟩

/-- A command word reaches the outcome, the violation mark and the sequencer only. -/
theorem exec_frame (h : exec i s = .next t) :
    t = { s with
      done := t.done, error := t.error, hit := t.hit, viol := t.viol, errCode := t.errCode, curOp := t.curOp,
      curLen := t.curLen, idx := t.idx } := by
  rcases exec_cases h with ⟨_, rfl⟩ | ⟨_, ⟨_, rfl⟩ | ⟨_, _, _, rfl⟩⟩ <;> rfl

/-- Only a word dropped while busy marks a violation (R78). -/
theorem busy_of_exec_viol (h : exec i s = .next t) (hv : t.viol ≠ s.viol) : s.busy = true := by
  rcases exec_cases h with ⟨hb, _⟩ | ⟨_, ⟨_, rfl⟩ | ⟨_, _, _, rfl⟩⟩
  · exact hb
  · exact absurd rfl hv
  · exact absurd rfl hv

/-- Only an accepted word restarts the probe count (R106). -/
theorem accepted_of_exec_idx (h : exec i s = .next t) (hi : t.idx ≠ s.idx) : s.busy = false ∧ t.busy = true := by
  rcases exec_cases h with ⟨_, rfl⟩ | ⟨hb, ⟨_, rfl⟩ | ⟨ht, _⟩⟩
  · exact absurd rfl hi
  · exact absurd rfl hi
  · exact ⟨hb, ht⟩

end CommandWord

/-- Settles O16: what is outside the frame of `exec_frame` is as before, and the other two elements change only as
`exec_cases` allows. -/
theorem commandWordFrame : Obligations.CommandWordFrame := by
  intro i s t h
  have kept {α : Type} (read : State → α) := congrArg read (exec_frame h)
  exact ⟨kept State.ie, kept State.ready, kept State.cfgWidth, kept State.cfgHashCount, kept State.width,
    kept State.hashCount, kept State.itemCount, fun n => kept (memRead ·.item n), fun p => kept (bitRead · p),
    kept State.schedule, kept State.response, busy_of_exec_viol h, accepted_of_exec_idx h⟩

/-! ### The busy gate -/

/-- Settles O38, register by register: each of the four gated writes is `violate` while busy. -/
theorem busyGate : Obligations.BusyGate := by
  intro s off v rest hs hb hg
  rcases hg with rfl | rfl | rfl | ⟨j, rfl, hj⟩
  · exact (step_writeCfgWidth hs).trans (congrArg _ (writeCfgWidth_busy (s := written s rest) hb v))
  · exact (step_writeCfgHashCount hs).trans (congrArg _ (writeCfgHashCount_busy (s := written s rest) hb v))
  · exact (step_command hs).trans (writeCmd_busy (s := written s rest) hb v)
  · exact (step_writeItem hj hs).trans (congrArg _ (writeItem_busy (s := written s rest) hb (4 * j) v))

/-! ### Reads -/

/-- What a read answers does not depend on what stands outside the block. -/
theorem regReadAnswer_sameBlock {s b : State} (h : sameBlock s b) (c : Params) (off : Nat) :
    regReadAnswer c b off = regReadAnswer c s off := by
  rw [h]
  rfl

/-- Settles O37: the first read leaves the same block, so the second one answers the same. -/
theorem readsHaveNoSideEffect : Obligations.ReadsHaveNoSideEffect := by
  intro s off rest hs
  refine ⟨_, _, step_regRead hs, rfl, step_regRead rfl, ?_⟩
  have same := regReadAnswer_sameBlock
    (sameBlock_answered s (.regRead off :: rest) (regReadAnswer .chip s off)) .chip off
  exact congrArg (fun r => { s with schedule := rest, response := some r }) same

end Sys2Proof.Machine
end

section
/-! PROOFS. The item buffer (spec R80 to R82, R142(g)): what a command reads of it, and that packed words read back. -/

namespace Sys2Proof.Machine

/-! ### Item bytes from `len` on take no part -/

/-- `s` with another item buffer. -/
def withItem (m : Memory) (s : State) : State := { s with item := m }

section Tail

variable {c : Params} {s t : State} {m : Memory}

/-- The probed position depends on the first `cur_len` item bytes only (R81, R160). -/
theorem probePosition_withItem (h : itemFrom m 0 s.curLen.toNat = itemFrom s.item 0 s.curLen.toNat) :
    probePosition c (withItem m s) = probePosition c s :=
  congrArg (position c · s.idx s.width) h

theorem insertAdvance_withItem (m : Memory) (s : State) :
    insertAdvance (withItem m s) = withItem m (insertAdvance s) := by
  unfold insertAdvance
  rw [apply_ite (withItem m)]
  rfl

theorem queryAdvance_withItem (v : Bool) (m : Memory) (s : State) :
    queryAdvance v (withItem m s) = withItem m (queryAdvance v s) := by
  cases v with
  | false => rfl
  | true =>
    rw [queryAdvance_true, queryAdvance_true, apply_ite (withItem m)]
    rfl

/-- A buffer that agrees on the first `cur_len` bytes leads to the same engine step. -/
theorem engineStep_withItem (hm : itemFrom m 0 s.curLen.toNat = itemFrom s.item 0 s.curLen.toNat)
    (h : engineStep c s = .next t) : engineStep c (withItem m s) = .next (withItem m t) := by
  have hp : probePosition c (withItem m s) = probePosition c s := probePosition_withItem hm
  rcases engineStep_cases h with ⟨ho, rfl⟩ | ⟨ho, rfl⟩ | ⟨ho, rfl⟩ | ⟨ho, b, hb, hlt, rfl⟩ | ⟨ho, v, hv, rfl⟩
  · exact engineStep_idle (busy_eq_false.mpr ho)
  · exact engineStep_init ho
  · exact engineStep_release ho
  · rw [engineStep_insert (s := withItem m s) ho hb (hp ▸ hlt), hp, ← insertAdvance_withItem]
    rfl
  · rw [engineStep_query (s := withItem m s) ho (hp ▸ hv), queryAdvance_withItem]

theorem engineStep_item (h : engineStep c s = .next t) : t.item = s.item := by rw [engineStep_frame h]

/-- The latched length stays until the command completes, which clears it (R52). -/
theorem engineStep_curLen (h : engineStep c s = .next t) : t.curLen = s.curLen ∨ t.curLen = 0 := by
  cases engineStep_kind h with
  | idle | probed => exact .inl rfl
  | initialised | released | inserted | answered => exact .inr rfl

theorem engineStep_curLen_le {n : Nat} (hn : s.curLen.toNat ≤ n) (h : engineStep c s = .next t) :
    t.curLen.toNat ≤ n := by
  rcases engineStep_curLen h with e | e <;> rw [e]
  · exact hn
  · exact n.zero_le

/-- An engine step keeps the agreement of two blocks up to their item tails (R142(g)). -/
theorem engineStep_sameUpToItemTail {n : Nat} {u : State} (hn : s.curLen.toNat ≤ n) (h : sameUpToItemTail n s t)
    (he : engineStep c s = .next u) : ∃ v, engineStep c t = .next v ∧ sameUpToItemTail n u v := by
  obtain ⟨frame, agree⟩ := h
  have hm : itemFrom t.item 0 s.curLen.toNat = itemFrom s.item 0 s.curLen.toNat :=
    itemFrom_congr fun k _ hk => agree k (by omega)
  refine ⟨withItem t.item u, ?_, rfl, fun k hk => ?_⟩
  · rw [frame]
    exact engineStep_withItem hm he
  · rw [engineStep_item he]
    exact agree k hk

/-- A run of `k + 1` engine steps that goes on begins with a step that does. -/
theorem engineRun_succ_next {k : Nat} {u : State} (h : engineRun c (k + 1) s = .next u) :
    ∃ t, engineStep c s = .next t ∧ engineRun c k t = .next u := by
  cases hs : engineStep c s with
  | next t => exact ⟨t, rfl, engineRun_succ hs k ▸ h⟩
  | fault f => simp [engineRun, hs] at h
  | refused r => simp [engineRun, hs] at h

end Tail

/-- Settles O26, by induction on the number of engine steps. -/
theorem itemTailTakesNoPart : Obligations.ItemTailTakesNoPart := by
  intro n s t hn hst k
  induction k generalizing s t with
  | zero =>
    rintro u ⟨⟩
    exact ⟨t, rfl, hst⟩
  | succ k ih =>
    intro u hu
    obtain ⟨s', hs', hrun⟩ := engineRun_succ_next hu
    obtain ⟨t', ht', hst'⟩ := engineStep_sameUpToItemTail hn hst hs'
    rw [engineRun_succ ht']
    exact ih s' t' (engineStep_curLen_le hn hs') hst' u hrun

/-! ### Packed words read back -/

/-- The word of four bytes, little-endian (R80). -/
def packedWord (a b d e : Byte) : Word := e ++ d ++ b ++ a

theorem packedWord_toNat (a b d e : Byte) :
    (packedWord a b d e).toNat = a.toNat + 2 ^ 8 * b.toNat + 2 ^ 16 * d.toNat + 2 ^ 24 * e.toNat := by
  unfold packedWord
  rw [append_byte_toNat, append_byte_toNat, append_byte_toNat]
  omega

/-- The unused high bytes of a short last word are 0 (R110). -/
theorem pack_one (a : Byte) : pack [a] = [packedWord a 0 0 0] := by
  refine congrArg (· :: []) (BitVec.eq_of_toNat_eq ?_)
  rw [BitVec.toNat_setWidth_of_le (by decide), packedWord_toNat]
  rfl

theorem pack_two (a b : Byte) : pack [a, b] = [packedWord a b 0 0] := by
  refine congrArg (· :: []) (BitVec.eq_of_toNat_eq ?_)
  rw [BitVec.toNat_setWidth_of_le (by decide), packedWord_toNat, append_byte_toNat, Nat.add_comm]
  rfl

theorem pack_three (a b d : Byte) : pack [a, b, d] = [packedWord a b d 0] := by
  refine congrArg (· :: []) (BitVec.eq_of_toNat_eq ?_)
  have zero : (0 : Byte).toNat = 0 := rfl
  rw [BitVec.toNat_setWidth_of_le (by decide), packedWord_toNat, append_byte_toNat, append_byte_toNat, zero]
  omega

theorem wordByte_packedWord (a b d e : Byte) :
    wordByte (packedWord a b d e) 0 = a ∧ wordByte (packedWord a b d e) 1 = b ∧
      wordByte (packedWord a b d e) 2 = d ∧ wordByte (packedWord a b d e) 3 = e := by
  have := a.isLt
  have := b.isLt
  have := d.isLt
  have := e.isLt
  simp only [← BitVec.toNat_inj, wordByte_toNat, packedWord_toNat]
  omega

section Stored

variable {m : Memory} (hwf : Memory.wf m = true)
include hwf

/-- The four item bytes a word write leaves (R37). -/
theorem itemFrom_writeItemWord (j : Nat) (v : Word) :
    itemFrom (writeItemWord m j v) j 4 = [wordByte v 0, wordByte v 1, wordByte v 2, wordByte v 3] := by
  have inside : ∀ k, k < 4 → memRead (writeItemWord m j v) (j + k) = wordByte v k := fun k hk => by
    rw [memRead_writeItemWord hwf, if_neg (by omega), Nat.add_sub_cancel_left]
  simp only [itemFrom, Nat.add_assoc, List.cons.injEq, and_true]
  exact ⟨inside 0 (by decide), inside 1 (by decide), inside 2 (by decide), inside 3 (by decide)⟩

theorem itemFrom_writePackedWord (j : Nat) (a b d e : Byte) :
    itemFrom (writeItemWord m j (packedWord a b d e)) j 4 = [a, b, d, e] := by
  obtain ⟨h0, h1, h2, h3⟩ := wordByte_packedWord a b d e
  rw [itemFrom_writeItemWord hwf, h0, h1, h2, h3]

/-- Words stored from item byte `j` on leave the bytes below `j` as they were. -/
theorem memRead_storeWords_below {j n : Nat} (hn : n < j) (ws : List Word) :
    memRead (storeWords m j ws) n = memRead m n := by
  induction ws generalizing m j with
  | nil => rfl
  | cons w ws ih =>
    rw [storeWords, ih (writeItemWord_wf hwf j w) (by omega), memRead_writeItemWord hwf, if_pos (.inl hn)]

/-- The words of `pack(x)`, stored from item byte `j` on, read back as `x` (R80, R82). -/
theorem itemFrom_storeWords_pack (j : Nat) (x : List Byte) : itemFrom (storeWords m j (pack x)) j x.length = x := by
  induction x using pack.induct generalizing m j with
  | case1 => rfl
  | case2 a =>
    rw [pack_one]
    exact congrArg (List.take 1) (itemFrom_writePackedWord hwf j a 0 0 0)
  | case3 a b =>
    rw [pack_two]
    exact congrArg (List.take 2) (itemFrom_writePackedWord hwf j a b 0 0)
  | case4 a b d =>
    rw [pack_three]
    exact congrArg (List.take 3) (itemFrom_writePackedWord hwf j a b d 0)
  | case5 a b d e rest ih =>
    have hwf' := writeItemWord_wf hwf j (packedWord a b d e)
    have first := (itemFrom_congr fun i _ hi => memRead_storeWords_below hwf' hi (pack rest)).trans
      (itemFrom_writePackedWord hwf j a b d e)
    exact congrArg₂ (· ++ ·) first (ih hwf' (j + 4))

end Stored

/-- Settles O39: the case of item byte 0. -/
theorem packedItemReadsBack : Obligations.PackedItemReadsBack :=
  fun _ x hwf => itemFrom_storeWords_pack hwf 0 x

end Sys2Proof.Machine
end

section
/-! PROOFS. The encoding (spec R100 to R105): `encode` and `decode` are inverse to each other on the legal words, and what
that says of the words of R105 and of the rows of the opcode map. -/

namespace Sys2Proof

/-! ### Decoder and encoder are inverse -/

/-- A low half of 2 makes an INSERT word, whatever `len` is (R102, R105). -/
theorem decode_of_insert_half {w : Word} (h : w.toNat % 65536 = 2) : decode w = .ok (.insert (w.toNat / 65536)) := by
  rw [decode_eq, if_neg (by omega), if_pos (by omega), if_pos (by omega)]

/-- A low half of 3 makes a QUERY word, whatever `len` is (R102, R105). -/
theorem decode_of_query_half {w : Word} (h : w.toNat % 65536 = 3) : decode w = .ok (.query (w.toNat / 65536)) := by
  rw [decode_eq, if_neg (by omega), if_neg (by omega), if_pos (by omega), if_pos (by omega)]

theorem decode_encode {i : Instr} (h : i.wellFormed = true) : decode (encode i) = .ok i := by
  cases i with
  | init => rfl
  | release => rfl
  | insert len =>
    have word := encode_insert_toNat (of_decide_eq_true h)
    have high : (65536 * len + 2) / 65536 = len := by omega
    rw [decode_of_insert_half (by omega), word, high]
  | query len =>
    have word := encode_query_toNat (of_decide_eq_true h)
    have high : (65536 * len + 3) / 65536 = len := by omega
    rw [decode_of_query_half (by omega), word, high]

theorem encode_of_decode {w : Word} {i : Instr} (hd : decode w = .ok i) : i.wellFormed = true ∧ encode i = w := by
  have half : w.toNat / 65536 < 65536 := by have := w.isLt; omega
  rcases decode_cases w with ⟨hw, e⟩ | ⟨hw, e⟩ | ⟨hw, e⟩ | ⟨hw, e⟩ | ⟨_, _, _, _, _, e⟩ <;> cases e.symm.trans hd
  · exact ⟨rfl, BitVec.eq_of_toNat_eq hw.symm⟩
  · exact ⟨rfl, BitVec.eq_of_toNat_eq hw.symm⟩
  · exact ⟨decide_eq_true half, BitVec.eq_of_toNat_eq (by rw [encode_insert_toNat half]; omega)⟩
  · exact ⟨decide_eq_true half, BitVec.eq_of_toNat_eq (by rw [encode_query_toNat half]; omega)⟩

/-- The legal words are the encodings of the well-formed instructions, each read as the one it encodes. -/
theorem decode_eq_ok_iff {w : Word} {i : Instr} : decode w = .ok i ↔ i.wellFormed = true ∧ encode i = w :=
  ⟨encode_of_decode, fun ⟨h, e⟩ => e ▸ decode_encode h⟩

/-- Settles O4, by the form of the instruction. -/
theorem decodeOfEncode : Obligations.DecodeOfEncode := fun _ => decode_encode

/-- Settles O5, by the outcomes of the decoder. -/
theorem encodeOfDecode : Obligations.EncodeOfDecode := fun _ _ => encode_of_decode

/-! ### The words of each outcome (R105) -/

/-- That some instruction has a property is one alternative per constructor, here the two of format C0 first. -/
theorem exists_instr {P : Instr → Prop} :
    (∃ i, P i) ↔ P .init ∨ P .release ∨ (∃ len, P (.insert len)) ∨ ∃ len, P (.query len) := by
  constructor
  · rintro ⟨i, h⟩
    cases i with
    | init => exact .inl h
    | release => exact .inr (.inl h)
    | insert len => exact .inr (.inr (.inl ⟨len, h⟩))
    | query len => exact .inr (.inr (.inr ⟨len, h⟩))
  · rintro (h | h | ⟨_, h⟩ | ⟨_, h⟩) <;> exact ⟨_, h⟩

section Words

variable {w : Word}

theorem decode_init_iff : decode w = .ok .init ↔ w = 0x00000001 := by
  rw [decode_eq_ok_iff]
  exact ⟨fun h => h.2.symm, fun h => ⟨rfl, h.symm⟩⟩

theorem decode_release_iff : decode w = .ok .release ↔ w = 0x00000004 := by
  rw [decode_eq_ok_iff]
  exact ⟨fun h => h.2.symm, fun h => ⟨rfl, h.symm⟩⟩

theorem decode_insert_iff {len : Nat} :
    decode w = .ok (.insert len) ↔ w.toNat % 65536 = 2 ∧ len = w.toNat / 65536 := by
  refine ⟨fun h => ?_, fun ⟨h, e⟩ => e ▸ decode_of_insert_half h⟩
  obtain ⟨wf, rfl⟩ := encode_of_decode h
  rw [encode_insert_toNat (of_decide_eq_true wf)]
  omega

theorem decode_query_iff {len : Nat} :
    decode w = .ok (.query len) ↔ w.toNat % 65536 = 3 ∧ len = w.toNat / 65536 := by
  refine ⟨fun h => ?_, fun ⟨h, e⟩ => e ▸ decode_of_query_half h⟩
  obtain ⟨wf, rfl⟩ := encode_of_decode h
  rw [encode_query_toNat (of_decide_eq_true wf)]
  omega

/-- A word is illegal when it decodes to no instruction. -/
theorem decode_error_iff_not_ok : (∃ reason, decode w = .error reason) ↔ ¬ ∃ i, decode w = .ok i := by
  cases decode w <;> simp

theorem decode_error_iff :
    (∃ reason, decode w = .error reason) ↔
      w ≠ 0x00000001 ∧ w ≠ 0x00000004 ∧ w.toNat % 65536 ≠ 2 ∧ w.toNat % 65536 ≠ 3 := by
  rw [decode_error_iff_not_ok, exists_instr, decode_init_iff, decode_release_iff]
  simp only [decode_insert_iff, decode_query_iff, exists_and_left, exists_eq, and_true, not_or, ne_eq]

end Words

/-- Settles O2: one equivalence per outcome. -/
theorem decodeIsTheRule : Obligations.DecodeIsTheRule := fun _ =>
  ⟨decode_init_iff, decode_release_iff, fun _ => decode_insert_iff, fun _ => decode_query_iff, decode_error_iff⟩

/-! ### The opcode map (R103) -/

theorem selectedBy_whole_word (m : String) (k w : Word) :
    OpcodeRow.selectedBy ⟨m, k, 0xFFFFFFFF⟩ w = true ↔ w = k := by
  have mask : w &&& 0xFFFFFFFF = w := BitVec.and_allOnes
  rw [OpcodeRow.selectedBy, decide_eq_true_eq, mask]

theorem selectedBy_low_half (m : String) (k w : Word) :
    OpcodeRow.selectedBy ⟨m, k, 0x0000FFFF⟩ w = true ↔ w.toNat % 65536 = k.toNat := by
  have mask : (w &&& 0x0000FFFF).toNat = w.toNat % 65536 := Nat.and_two_pow_sub_one_eq_mod w.toNat 16
  rw [OpcodeRow.selectedBy, decide_eq_true_eq, ← BitVec.toNat_inj, mask]

theorem selectedBy_iff_decode (w : Word) {r : OpcodeRow} (hr : r ∈ opcodeRows) :
    r.selectedBy w = true ↔ ∃ i, decode w = .ok i ∧ mnemonicOf i = r.mnemonic := by
  rw [exists_instr]
  simp only [opcodeRows, List.mem_cons, List.not_mem_nil, or_false] at hr
  rcases hr with rfl | rfl | rfl | rfl
  · rw [selectedBy_whole_word]; simp [decode_init_iff, mnemonicOf]
  · rw [selectedBy_low_half]; simp [decode_insert_iff, mnemonicOf]
  · rw [selectedBy_low_half]; simp [decode_query_iff, mnemonicOf]
  · rw [selectedBy_whole_word]; simp [decode_release_iff, mnemonicOf]

theorem opcodeRows_mnemonic_inj : ∀ r ∈ opcodeRows, ∀ q ∈ opcodeRows, r.mnemonic = q.mnemonic → r = q := by decide

theorem exists_row_of_instr (i : Instr) : ∃ r ∈ opcodeRows, mnemonicOf i = r.mnemonic := by
  cases i <;> simp [opcodeRows, mnemonicOf]

theorem row_unique {w : Word} {r q : OpcodeRow} (hr : r ∈ opcodeRows) (hq : q ∈ opcodeRows)
    (hrw : r.selectedBy w = true) (hqw : q.selectedBy w = true) : r = q := by
  obtain ⟨i, hi, ofR⟩ := (selectedBy_iff_decode w hr).mp hrw
  obtain ⟨j, hj, ofQ⟩ := (selectedBy_iff_decode w hq).mp hqw
  cases hi.symm.trans hj
  exact opcodeRows_mnemonic_inj r hr q hq (ofR.symm.trans ofQ)

theorem no_row_iff_illegal (w : Word) :
    (∀ r ∈ opcodeRows, r.selectedBy w = false) ↔ ∃ reason, decode w = .error reason := by
  rw [decode_error_iff_not_ok]
  constructor
  · rintro unselected ⟨i, hi⟩
    obtain ⟨r, hr, e⟩ := exists_row_of_instr i
    exact Bool.eq_false_iff.mp (unselected r hr) ((selectedBy_iff_decode w hr).mpr ⟨i, hi, e⟩)
  · intro illegal r hr
    rw [Bool.eq_false_iff]
    intro selected
    obtain ⟨i, hi, _⟩ := (selectedBy_iff_decode w hr).mp selected
    exact illegal ⟨i, hi⟩

/-- Settles O3: that the rows are disjoint, and that they are all the legal words, follow from what each row selects. -/
theorem decodeFollowsOpcodeRows : Obligations.DecodeFollowsOpcodeRows :=
  ⟨fun w _ => selectedBy_iff_decode w, fun _ _ hr _ hq => row_unique hr hq, no_row_iff_illegal⟩

/-- Settles O1, by running the decoder on the eight words. -/
theorem sampleWordsDecode : Obligations.SampleWordsDecode := by
  unfold Obligations.SampleWordsDecode
  decide

end Sys2Proof
end

section
/-! PROOFS. A command word on an idle block (spec R100, R106, R203, R204): how it is loaded, and that it is rejected or
accepted as itself. -/

namespace Sys2Proof.Machine

/-- A word loaded whole is the next write to `CMD` (R100). -/
theorem withFetchWord_schedule (s : State) (w : Word) :
    (s.withFetchWord 32 w.toNat).schedule = .regWrite 0x030 w :: s.schedule := by
  have word : BitVec.ofNat 32 (w.toNat % 2 ^ 32) = w := by rw [Nat.mod_eq_of_lt w.isLt, word_ofNat_toNat]
  exact congrArg (Event.regWrite 0x030 · :: s.schedule) word

/-- Settles O7: the loaded write is a command step as O6 says. -/
theorem fetchWordIsTheNextCommand : Obligations.FetchWordIsTheNextCommand := fun s w i hi hd =>
  commandStepRunsDecodedInstruction (s.withFetchWord 32 w.toNat) w i s.schedule (withFetchWord_schedule s w) hi hd

section Idle

variable {i : Instr} {s : State}

/-- A word that passes its checks on an idle block is latched (R106). -/
theorem exec_accepts (hi : s.busy = false) (h : firstFailingCheck .chip (some i) s = none) :
    exec i s = .next (acceptedAs (opOf (some i)) (BitVec.ofNat 16 (lenOf (some i))) s) := by
  rw [exec_idle hi, processWord_accepts h]

/-- A word that fails a check on an idle block is rejected with that check's code (R203). -/
theorem exec_rejects {e : ErrorName} (hi : s.busy = false) (h : firstFailingCheck .chip (some i) s = some e) :
    exec i s = .next (rejectedWith (errorCode e) s) := by
  rw [exec_idle hi, processWord_rejects h]

end Idle

/-- Settles O14: what each of the three commands checks is what is given. -/
theorem filterCommandsAccepted : Obligations.FilterCommandsAccepted := fun _ hi hr =>
  ⟨fun _ hl hc => exec_accepts hi (check_insert_accepts.mpr ⟨hr, hl, mt itemCountMax_iff.mp hc⟩),
    fun _ hl => exec_accepts hi (check_query_accepts.mpr ⟨hr, hl⟩),
    exec_accepts hi (check_release_accepts.mpr hr)⟩

/-- Settles O15: whether some check fails decides, and an accepted length has passed the check of its command. -/
theorem wordIsRejectedOrAccepted : Obligations.WordIsRejectedOrAccepted := by
  intro i s hi
  cases hc : firstFailingCheck .chip (some i) s with
  | some e =>
    obtain ⟨nonzero, produced⟩ := errorCode_of_check hc
    exact ⟨_, exec_rejects hi hc, .inl ⟨_, nonzero, produced, rfl, hi⟩⟩
  | none =>
    refine ⟨_, exec_accepts hi hc, .inr ⟨busy_acceptedAs i _ s, ?_⟩⟩
    cases i with
    | init => exact .inl ⟨rfl, rfl⟩
    | release => exact .inr (.inl ⟨rfl, rfl⟩)
    | insert len =>
      obtain ⟨_, fits, _⟩ := check_insert_accepts.mp hc
      exact .inr (.inr (.inl ⟨len, rfl, fits, rfl⟩))
    | query len =>
      obtain ⟨_, fits⟩ := check_query_accepts.mp hc
      exact .inr (.inr (.inr ⟨len, rfl, fits, rfl⟩))

end Sys2Proof.Machine
end

section
/-! PROOFS. INIT and RELEASE (spec R121, R123, R126): INIT's checks in their order, and what the one engine step of each
command leaves. -/

namespace Sys2Proof.Machine

/-! ### A command word delivered while idle -/

section Idle

variable {c : Params} {d : Option Instr} {s : State}

/-- A word that fails a check while idle is rejected with that check's code (R203). -/
theorem commandWord_rejects {e : ErrorName} (hi : s.busy = false) (h : firstFailingCheck c d s = some e) :
    commandWord c d s = rejectedWith (errorCode e) s := by
  rw [commandWord_idle hi, processWord_rejects h]

/-- A word that passes its checks while idle is latched (R106). -/
theorem commandWord_accepts (hi : s.busy = false) (h : firstFailingCheck c d s = none) :
    commandWord c d s = acceptedAs (opOf d) (BitVec.ofNat 16 (lenOf d)) s := by
  rw [commandWord_idle hi, processWord_accepts h]

end Idle

/-! ### INIT's checks (R121) -/

section InitChecks

variable {c : Params} {s : State}

theorem check_init_configured (hr : s.ready = true) :
    firstFailingCheck c (some .init) s = some .alreadyConfigured := by
  rw [firstFailingCheck_init, if_pos hr]

/-- Without a filter the staged pair decides. -/
theorem check_init_unconfigured (hr : s.ready = false) :
    firstFailingCheck c (some .init) s =
      if s.cfgWidth = 0 ∨ s.cfgHashCount = 0 then some .invalidParameter
      else if 255 < s.cfgHashCount.toNat then some .tooManyHashFunctions
      else if c.maxWidth < s.cfgWidth.toNat then some .outOfMemory
      else none := by
  rw [firstFailingCheck_init, if_neg (by rw [hr]; nofun)]

theorem check_init_zero (hr : s.ready = false) (h0 : s.cfgWidth = 0 ∨ s.cfgHashCount = 0) :
    firstFailingCheck c (some .init) s = some .invalidParameter := by
  rw [check_init_unconfigured hr, if_pos h0]

theorem check_init_too_many (hr : s.ready = false) (hw : s.cfgWidth ≠ 0) (hk : s.cfgHashCount ≠ 0)
    (hmany : 255 < s.cfgHashCount.toNat) :
    firstFailingCheck c (some .init) s = some .tooManyHashFunctions := by
  rw [check_init_unconfigured hr, if_neg (not_or.mpr ⟨hw, hk⟩), if_pos hmany]

theorem check_init_too_wide (hr : s.ready = false) (hw : s.cfgWidth ≠ 0) (hk : s.cfgHashCount ≠ 0)
    (hcount : s.cfgHashCount.toNat ≤ 255) (hwide : c.maxWidth < s.cfgWidth.toNat) :
    firstFailingCheck c (some .init) s = some .outOfMemory := by
  rw [check_init_unconfigured hr, if_neg (not_or.mpr ⟨hw, hk⟩), if_neg (Nat.not_lt.mpr hcount), if_pos hwide]

end InitChecks

/-- Settles O10: each clause names the first check of INIT that fails, the last one that none does. -/
theorem initChecksInOrder : Obligations.InitChecksInOrder :=
  ⟨exec_eq .init, fun _ _ hi =>
    ⟨fun hr => commandWord_rejects hi (check_init_configured hr),
      fun hr h0 => commandWord_rejects hi (check_init_zero hr h0),
      fun hr hw hk hmany => commandWord_rejects hi (check_init_too_many hr hw hk hmany),
      fun hr hw hk hcount hwide => commandWord_rejects hi (check_init_too_wide hr hw hk hcount hwide),
      fun hr hw hk hcount hfits => commandWord_accepts hi (check_init_accepts.mpr ⟨hr, hw, hk, hcount, hfits⟩)⟩⟩

/-! ### The bits where the array has no value (R55) -/

theorem bitRead_without_array {s : State} (h : s.bitArray = none) (p : Nat) : bitRead s p = none := by
  unfold bitRead
  rw [h]

theorem bitRead_beyond_width {s : State} {p : Nat} (h : s.width.toNat ≤ p) : bitRead s p = none := by
  unfold bitRead
  split
  · rfl
  · exact if_neg (Nat.not_lt.mpr h)

/-! ### The one engine step of each command, after its acceptance -/

/-- The hash count that INIT latches is the staged one whole (R29, R123). -/
theorem initStep_hashCount_toNat {s : State} (h : s.cfgHashCount.toNat ≤ 255) :
    (initStep s).hashCount.toNat = s.cfgHashCount.toNat := by
  change (s.cfgHashCount.setWidth 8).toNat = s.cfgHashCount.toNat
  rw [BitVec.toNat_setWidth, Nat.mod_eq_of_lt (by omega)]

/-- INIT leaves every bit below the new width 0 (R73, R123). -/
theorem bitRead_initStep {s : State} {p : Nat} (h : p < s.cfgWidth.toNat) : bitRead (initStep s) p = some false :=
  bitRead_spec (s := initStep s) rfl h

/-- On an idle block a completed INIT changes what R123 lists and the outcome. -/
theorem initStep_acceptedAs {s : State} (hi : s.busy = false) (hl : s.curLen = 0) :
    initStep (acceptedAs .init 0 s) = { s with
      width := s.cfgWidth, hashCount := (initStep s).hashCount, itemCount := 0, idx := 0,
      bitArray := (initStep s).bitArray,
      ready := true, done := true, hit := false, error := false, errCode := 0 } := by
  have idle : s.curOp = .none := busy_eq_false.mp hi
  simp [initStep, complete, acceptedAs, idle, hl]

/-- On an idle block a completed RELEASE changes what R126 lists and the outcome. -/
theorem releaseStep_acceptedAs {s : State} (hi : s.busy = false) (hl : s.curLen = 0) :
    releaseStep (acceptedAs .release 0 s) = { s with
      width := 0, hashCount := 0, itemCount := 0, idx := 0, bitArray := none,
      ready := false, done := true, hit := false, error := false, errCode := 0 } := by
  have idle : s.curOp = .none := busy_eq_false.mp hi
  simp [releaseStep, complete, acceptedAs, idle, hl]

/-- Settles O17: the accepted state takes the INIT step, and what that leaves is `initStep_acceptedAs`. -/
theorem initBuildsEmptyFilter : Obligations.InitBuildsEmptyFilter := by
  intro s hi hr hl hw hfits hk hcount
  have accepted := exec_accepts hi (check_init_accepts.mpr ⟨hr, hw, hk, hcount, hfits⟩)
  exact ⟨acceptedAs .init 0 s, initStep (acceptedAs .init 0 s), accepted, busy_acceptedAs .init 0 s,
    engineStep_init rfl, initStep_acceptedAs hi hl, initStep_hashCount_toNat (s := acceptedAs .init 0 s) hcount,
    fun _ hp => bitRead_initStep (s := acceptedAs .init 0 s) hp,
    fun _ hp => bitRead_beyond_width (s := initStep (acceptedAs .init 0 s)) hp⟩

/-- Settles O18: the accepted state takes the RELEASE step, and what that leaves is `releaseStep_acceptedAs`. -/
theorem releaseDropsFilter : Obligations.ReleaseDropsFilter := by
  intro s hi hr hl
  have accepted := exec_accepts hi (check_release_accepts.mpr hr)
  exact ⟨acceptedAs .release 0 s, releaseStep (acceptedAs .release 0 s), accepted, busy_acceptedAs .release 0 s,
    engineStep_release rfl, releaseStep_acceptedAs hi hl, bitRead_without_array rfl⟩

end Sys2Proof.Machine
end

section
/-! PROOFS. INSERT (spec R140 to R143): one probe step, and the whole command as the state after each of its steps. -/

namespace Sys2Proof.Machine

/-! ### One probe step (R141) -/

@[simp] theorem insertAdvance_idx (s : State) : (insertAdvance s).idx = s.idx + 1 := by
  unfold insertAdvance
  split <;> rfl

@[simp] theorem insertAdvance_width (s : State) : (insertAdvance s).width = s.width := by
  unfold insertAdvance
  split <;> rfl

@[simp] theorem insertAdvance_bitArray (s : State) : (insertAdvance s).bitArray = s.bitArray := by
  unfold insertAdvance
  split <;> rfl

/-- Settles O21: the step is `BitSet` at the probed position and then `insertAdvance`, whose two cases are the last probe
and any other. -/
theorem insertProbeStep : Obligations.InsertProbeStep := by
  intro s h ho
  have hp : s.probing := .inl ho
  have left := h.probeLeft hp
  have inside := h.probe_inside hp
  obtain ⟨b, hb⟩ := h.array (h.needsFilter (.inl hp))
  have read := bitRead_after_set hb inside (insertAdvance_bitArray { s with bitArray := some (bitInsert b _) })
    (insertAdvance_width _)
  refine ⟨b, _, hb, engineStep_insert ho hb inside, (read _).trans (if_pos rfl),
    fun p other => (read p).trans (if_neg other), ?_, fun before => ?_, fun last => ?_⟩
  · rw [insertAdvance_idx]
    exact idx_succ_toNat left
  · rw [insertAdvance_withBits, if_neg (mt (lastProbe_iff left).mp before)]
  · rw [insertAdvance_withBits, if_pos ((lastProbe_iff left).mpr last)]
    exact ⟨rfl, itemCount_succ_toNat (h.countRoom ho)⟩

/-! ### Several bits set in a row -/

/-- `BitRead` after `BitSet` at each position of a list (R71, R72). -/
theorem bitRead_after_sets {s t : State} {b : BitSet} {ps : List Nat} (hb : s.bitArray = some b)
    (hps : ∀ p ∈ ps, p < s.width.toNat) (ht : t.bitArray = some (ps.foldl bitInsert b)) (hw : t.width = s.width)
    (q : Nat) : bitRead t q = if q ∈ ps then some true else bitRead s q := by
  induction ps generalizing s b with
  | nil => simpa using bitRead_congr (ht.trans hb.symm) hw q
  | cons p ps ih =>
    obtain ⟨hp, hps⟩ := List.forall_mem_cons.mp hps
    have first := bitRead_after_set (t := { s with bitArray := some (bitInsert b p) }) hb hp rfl rfl q
    rw [ih (s := { s with bitArray := some (bitInsert b p) }) rfl hps ht hw, first]
    by_cases hq : q = p <;> simp [hq]

/-- Setting bits that are all set changes nothing (R72). -/
theorem foldl_bitInsert_of_mem {b : BitSet} (hwf : BitSet.wf b = true) {ps : List Nat} (h : ∀ p ∈ ps, p ∈ b) :
    ps.foldl bitInsert b = b := by
  induction ps with
  | nil => rfl
  | cons p ps ih =>
    obtain ⟨hp, hps⟩ := List.forall_mem_cons.mp h
    rw [List.foldl_cons, bitInsert_of_mem hwf hp, ih hps]

/-! ### The whole command (R143) -/

/-- The positions of the first `k` probes of item `x` (R160). -/
def probePositions (c : Params) (x : List Byte) (width : Word) (k : Nat) : List Nat :=
  (List.range k).map fun i => position c x (BitVec.ofNat 8 i) width

section Probes

variable {c : Params} {x : List Byte} {width : Word} {k p : Nat}

theorem mem_probePositions :
    p ∈ probePositions c x width k ↔ ∃ i : Nat, i < k ∧ position c x (BitVec.ofNat 8 i) width = p := by
  simp [probePositions]

theorem probePositions_succ (c : Params) (x : List Byte) (width : Word) (k : Nat) :
    probePositions c x width (k + 1) = probePositions c x width k ++ [position c x (BitVec.ofNat 8 k) width] := by
  simp [probePositions, List.range_succ]

theorem probePositions_lt (hw : 0 < width.toNat) (h : p ∈ probePositions c x width k) : p < width.toNat := by
  obtain ⟨i, _, rfl⟩ := mem_probePositions.mp h
  exact position_lt c x _ hw

end Probes

/-- The INSERT in progress in `s` after its first `k` probes, `b` being the array before them. -/
def afterProbes (c : Params) (b : BitSet) (k : Nat) (s : State) : State :=
  { s with
    idx := BitVec.ofNat 8 k
    bitArray := some ((probePositions c (itemBytes s s.curLen.toNat) s.width k).foldl bitInsert b) }

/-- The same INSERT completed: all probes made and the insertion counted (R141, R52). -/
def afterInsert (c : Params) (b : BitSet) (s : State) : State :=
  complete { afterProbes c b s.hashCount.toNat s with itemCount := s.itemCount + 1 }

section Run

variable {c : Params} {b : BitSet} {s : State} {k : Nat}

theorem afterProbes_idx (hk : k < s.hashCount.toNat) : (afterProbes c b k s).idx.toNat = k := by
  have := s.hashCount.isLt
  exact Nat.mod_eq_of_lt (by omega)

/-- One probe more is the next index, and the next position set (R141). -/
theorem afterProbes_succ (c : Params) (b : BitSet) (k : Nat) (s : State) :
    afterProbes c b (k + 1) s =
      { s with
        idx := (afterProbes c b k s).idx + 1
        bitArray := (afterProbes c b k s).bitArray.map (bitInsert · (probePosition c (afterProbes c b k s))) } := by
  unfold afterProbes
  rw [probePositions_succ, List.foldl_append, BitVec.ofNat_add]
  rfl

/-- The engine step after `k` probes makes the next one, and completes the INSERT if that was the last (R141). -/
theorem engineStep_afterProbes (ho : s.curOp = .insert) (hw : 0 < s.width.toNat) (hk : k < s.hashCount.toNat) :
    engineStep c (afterProbes c b k s) = .next (
      if k + 1 = s.hashCount.toNat then afterInsert c b s else afterProbes c b (k + 1) s) := by
  have inside : probePosition c (afterProbes c b k s) < s.width.toNat := position_lt c _ _ hw
  have idx : (afterProbes c b k s).idx.toNat = k := afterProbes_idx hk
  have last : _ ↔ k + 1 = s.hashCount.toNat := idx ▸ lastProbe_iff (s := afterProbes c b k s) (idx.trans_lt hk)
  rw [engineStep_insert (s := afterProbes c b k s) ho rfl inside, insertAdvance_withBits, if_congr last rfl rfl]
  split
  · next h =>
    unfold afterInsert
    rw [← h, afterProbes_succ]
    rfl
  · rw [afterProbes_succ]
    rfl

/-- While probes are left, `k` engine steps make the first `k` of them. -/
theorem engineRun_insert_probes (ho : s.curOp = .insert) (hw : 0 < s.width.toNat) (hb : s.bitArray = some b)
    (h0 : s.idx = 0) (hk : k < s.hashCount.toNat) : engineRun c k s = .next (afterProbes c b k s) := by
  induction k with
  | zero =>
    have start : afterProbes c b 0 s = s := by
      change { s with idx := 0, bitArray := some b } = s
      rw [← h0, ← hb]
    rw [start, engineRun_zero]
  | succ k ih =>
    have left : k < s.hashCount.toNat := by omega
    rw [engineRun_add (ih left) 1, engineRun_one, engineStep_afterProbes ho hw left, if_neg hk.ne]

/-- After `hash_count` engine steps the INSERT is completed (R51). -/
theorem engineRun_insert (ho : s.curOp = .insert) (hw : 0 < s.width.toNat) (hb : s.bitArray = some b)
    (h0 : s.idx = 0) (hcount : 1 ≤ s.hashCount.toNat) :
    engineRun c s.hashCount.toNat s = .next (afterInsert c b s) := by
  obtain ⟨k, hk⟩ := Nat.exists_eq_add_of_le' hcount
  have left : k < s.hashCount.toNat := by omega
  rw [hk, engineRun_add (engineRun_insert_probes ho hw hb h0 left) 1, engineRun_one,
    engineStep_afterProbes ho hw left, if_pos hk.symm]

end Run

/-- What a completed INSERT of `len` bytes leaves of an idle block `s` with the array `b` (R143). -/
def insertResult (c : Params) (b : BitSet) (len : Nat) (s : State) : State :=
  { s with
    bitArray := some ((probePositions c (itemBytes s len) s.width s.hashCount.toNat).foldl bitInsert b)
    itemCount := s.itemCount + 1
    idx := s.hashCount
    done := true
    hit := false
    error := false
    errCode := 0 }

section Idle

variable {s : State} {len : Nat} {b : BitSet}

theorem afterInsert_accepted {c : Params} (hi : s.busy = false) (h0 : s.curLen = 0) (hl : len ≤ c.itemMax) :
    afterInsert c b (acceptedAs .insert (BitVec.ofNat 16 len) s) = insertResult c b len s := by
  have idle : s.curOp = .none := busy_eq_false.mp hi
  have whole : (BitVec.ofNat 16 len).toNat = len := latched_toNat hl
  unfold afterInsert afterProbes insertResult complete acceptedAs
  rw [idle, h0, whole, BitVec.ofNat_toNat, BitVec.setWidth_eq]
  rfl

/-- From its acceptance an INSERT runs to `insertResult` in `hash_count` engine steps (R143, R51). -/
theorem Inv.insert_completes {c : Params} (h : Inv c s) (hi : s.busy = false) (hr : s.ready = true)
    (hl : len ≤ c.itemMax) (hb : s.bitArray = some b) :
    Machine.engineRun c s.hashCount.toNat (acceptedAs .insert (BitVec.ofNat 16 len) s) =
      .next (insertResult c b len s) := by
  rw [← afterInsert_accepted hi (h.idle_len hi) hl]
  exact engineRun_insert (s := acceptedAs .insert (BitVec.ofNat 16 len) s) rfl (h.readyWidth hr).1 hb rfl
    (h.readyCount hr)

theorem insertResult_itemCount (c : Params) (hc : s.itemCount.toNat ≠ 2 ^ 64 - 1) :
    (insertResult c b len s).itemCount.toNat = s.itemCount.toNat + 1 :=
  itemCount_succ_toNat (mt itemCountMax_iff.mp hc)

end Idle

/-- Settles O19: each state of the run is given by `engineRun_insert_probes` and `Inv.insert_completes`, and the bits of
the last one by `bitRead_after_sets`. -/
theorem insertSetsItsBits : Obligations.InsertSetsItsBits := by
  intro s len h hi hr hl hc
  obtain ⟨b, hb⟩ := h.array hr
  obtain ⟨hw, _⟩ := h.readyWidth hr
  obtain ⟨accepted, _, _⟩ := filterCommandsAccepted s hi hr
  have read := bitRead_after_sets (t := insertResult .chip b len s) hb (fun _ => probePositions_lt hw) rfl rfl
  refine ⟨_, insertResult .chip b len s, accepted len hl hc,
    fun k hk => ⟨_, engineRun_insert_probes rfl hw hb rfl hk, rfl, afterProbes_idx hk⟩,
    h.insert_completes hi hr hl hb, rfl, insertResult_itemCount .chip hc, fun i hk => ?_, fun p other => ?_⟩
  · exact (read _).trans (if_pos (mem_probePositions.mpr ⟨i, hk, rfl⟩))
  · refine (read p).trans (if_neg fun hp => ?_)
    obtain ⟨i, hk, e⟩ := mem_probePositions.mp hp
    exact other i hk e

/-- Settles O24: every probed position is listed already, so that setting them all leaves the array. -/
theorem duplicateInsertOnlyCounts : Obligations.DuplicateInsertOnlyCounts := by
  intro s len h hi hr hl hc hset
  obtain ⟨b, hb, hwf, _⟩ := h.arrayInUse hr
  obtain ⟨accepted, _, _⟩ := filterCommandsAccepted s hi hr
  have listed : ∀ p ∈ probePositions .chip (itemBytes s len) s.width s.hashCount.toNat, p ∈ b := by
    intro p hp
    obtain ⟨i, hk, rfl⟩ := mem_probePositions.mp hp
    have set := (bitRead_spec hb (probePositions_lt (h.readyWidth hr).1 hp)).symm.trans (hset i hk)
    exact (bitListed_iff b _).mp (Option.some.inj set)
  refine ⟨_, insertResult .chip b len s, accepted len hl hc, h.insert_completes hi hr hl hb, ?_,
    insertResult_itemCount .chip hc⟩
  exact (congrArg some (foldl_bitInsert_of_mem hwf listed)).trans hb.symm

end Sys2Proof.Machine
end

section
/-! PROOFS. QUERY (spec R150 to R154): one probe step, the whole command, and that it misses no inserted item. -/

namespace Sys2Proof.Machine

/-! ### One probe step (R151) -/

@[simp] theorem queryAdvance_idx (v : Bool) (s : State) : (queryAdvance v s).idx = s.idx + 1 := by
  cases v with
  | false => rfl
  | true =>
    rw [queryAdvance_true]
    split <;> rfl

/-- Settles O22: the step reads the probed bit, and `queryAdvance` on that bit is one of the three cases. -/
theorem queryProbeStep : Obligations.QueryProbeStep := by
  intro s h ho
  have hp : s.probing := .inr ho
  have left := h.probeLeft hp
  obtain ⟨b, hb⟩ := h.array (h.needsFilter (.inl hp))
  have read := bitRead_spec hb (h.probe_inside hp)
  refine ⟨_, _, read, engineStep_query ho read, ?_, fun zero => ?_, fun one last => ?_, fun one before => ?_⟩
  · rw [queryAdvance_idx]
    exact idx_succ_toNat left
  · rw [zero, queryAdvance_false]
    rfl
  · rw [one, queryAdvance_true, if_pos ((lastProbe_iff left).mpr last)]
    rfl
  · rw [one, queryAdvance_true, if_neg (mt (lastProbe_iff left).mp before)]

/-! ### The whole command (R153) -/

/-- The QUERY of `len` bytes accepted on the idle block `s`, after `k` probes that all read 1. -/
def querying (len k : Nat) (s : State) : State :=
  { acceptedAs .query (BitVec.ofNat 16 len) s with idx := BitVec.ofNat 8 k }

/-- What a QUERY that ends with probe number `k` and the answer `v` leaves of the idle block `s` (R153). -/
def queryResult (k : Nat) (v : Bool) (s : State) : State :=
  { s with idx := BitVec.ofNat 8 k, hit := v, done := true, error := false, errCode := 0 }

/-- Some probe decides a QUERY: the first that reads 0, or the last of all. -/
theorem exists_deciding_probe {n : Nat} (hn : 1 ≤ n) (reads : Nat → Bool) :
    ∃ k < n, (∀ i < k, reads i = true) ∧ (reads k = true → k + 1 = n) := by
  induction n, hn using Nat.le_induction with
  | base => exact ⟨0, Nat.one_pos, nofun, fun _ => rfl⟩
  | succ n _ ih =>
    obtain ⟨k, hk, ones, last⟩ := ih
    cases hr : reads k with
    | false => exact ⟨k, by omega, ones, by simp [hr]⟩
    | true =>
      obtain rfl := last hr
      exact ⟨k + 1, by omega, probes_below_succ ones hr, fun _ => rfl⟩

section Run

variable {c : Params} {s : State} {len k : Nat} {v : Bool}

theorem accept_query (hi : s.busy = false) (hr : s.ready = true) (hl : len ≤ Params.chip.itemMax) :
    exec (.query len) s = .next (querying len 0 s) := by
  obtain ⟨_, accepted, _⟩ := filterCommandsAccepted s hi hr
  exact accepted len hl

theorem probePosition_querying (hl : len ≤ c.itemMax) :
    probePosition c (querying len k s) = position c (itemBytes s len) (BitVec.ofNat 8 k) s.width :=
  congrArg (fun n => position c (itemBytes s n) (BitVec.ofNat 8 k) s.width) (latched_toNat hl)

/-- The engine step after `k` probes reads the bit of the next one and goes on as it says (R151). -/
theorem engineStep_querying (hl : len ≤ c.itemMax)
    (hv : bitRead s (position c (itemBytes s len) (BitVec.ofNat 8 k) s.width) = some v) :
    engineStep c (querying len k s) = .next (queryAdvance v (querying len k s)) :=
  engineStep_query rfl ((congrArg (bitRead s) (probePosition_querying hl)).trans hv)

theorem querying_last_iff (hk : k < s.hashCount.toNat) :
    (querying len k s).idx + 1 = (querying len k s).hashCount ↔ k + 1 = s.hashCount.toNat := by
  have := s.hashCount.isLt
  have idx : (querying len k s).idx.toNat = k := Nat.mod_eq_of_lt (by omega)
  rw [lastProbe_iff (idx.trans_lt hk), idx]
  rfl

/-- A 1 before the last probe leads to the next probe (R151). -/
theorem queryAdvance_goes_on (hk : k + 1 < s.hashCount.toNat) :
    queryAdvance true (querying len k s) = querying len (k + 1) s := by
  rw [queryAdvance_true, if_neg (mt (querying_last_iff (by omega)).mp hk.ne)]
  unfold querying
  rw [BitVec.ofNat_add]
  rfl

/-- Completing with one probe more and the answer `v` leaves `queryResult` (R52). -/
theorem complete_querying (hi : s.busy = false) (h0 : s.curLen = 0) (v : Bool) :
    complete { querying len k s with idx := (querying len k s).idx + 1, hit := v } = queryResult (k + 1) v s := by
  have idle : s.curOp = .none := busy_eq_false.mp hi
  unfold complete querying queryResult acceptedAs
  rw [idle, h0, BitVec.ofNat_add]
  rfl

/-- A 0, and the 1 of the last probe, complete the QUERY with that answer (R151). -/
theorem queryAdvance_answers (hi : s.busy = false) (h0 : s.curLen = 0)
    (hlast : v = true → k + 1 = s.hashCount.toNat) :
    queryAdvance v (querying len k s) = queryResult (k + 1) v s := by
  cases v with
  | false => exact complete_querying hi h0 false
  | true =>
    have last := hlast rfl
    rw [queryAdvance_true, if_pos ((querying_last_iff (by omega)).mpr last)]
    exact complete_querying hi h0 true

/-- While every probe reads 1 and probes are left, `k` engine steps make the first `k` of them. -/
theorem engineRun_querying (hl : len ≤ c.itemMax) (hk : k < s.hashCount.toNat)
    (ones : ∀ i < k, bitRead s (position c (itemBytes s len) (BitVec.ofNat 8 i) s.width) = some true) :
    engineRun c k (querying len 0 s) = .next (querying len k s) := by
  induction k with
  | zero => rfl
  | succ k ih =>
    rw [engineRun_add (ih (by omega) fun i hi => ones i (by omega)) 1, engineRun_one,
      engineStep_querying hl (ones k (by omega)), queryAdvance_goes_on hk]

end Run

/-- In a configured block some probe of the item `x` decides: the first that reads 0, or the last of all. -/
theorem Inv.deciding_probe {c : Params} {s : State} (h : Inv c s) (hr : s.ready = true) (x : List Byte) :
    ∃ k v, k < s.hashCount.toNat ∧
      (∀ i < k, bitIsSet s (position c x (BitVec.ofNat 8 i) s.width)) ∧
      bitRead s (position c x (BitVec.ofNat 8 k) s.width) = some v ∧ (v = true → k + 1 = s.hashCount.toNat) := by
  obtain ⟨b, hb⟩ := h.array hr
  have read (i : Nat) := bitRead_spec hb (position_lt c x (BitVec.ofNat 8 i) (h.readyWidth hr).1)
  obtain ⟨k, hk, ones, last⟩ := exists_deciding_probe (h.readyCount hr)
    fun i => bitListed b (position c x (BitVec.ofNat 8 i) s.width)
  exact ⟨k, _, hk, fun i hi => (read i).trans (congrArg some (ones i hi)), read k, last⟩

/-- Settles O20: `Inv.deciding_probe` says where the QUERY ends; the states before that are `querying`, and the probe
that decides leaves `queryResult`. -/
theorem queryAnswersMembership : Obligations.QueryAnswersMembership := by
  intro s len h hi hr hl
  obtain ⟨k, v, hk, ones, hv, last⟩ := h.deciding_probe hr (itemBytes s len)
  have count := s.hashCount.isLt
  have run (j : Nat) (hj : j ≤ k) := engineRun_querying hl (hj.trans_lt hk) fun i hij => ones i (hij.trans_le hj)
  refine ⟨querying len 0 s, queryResult (k + 1) v s, k + 1, accept_query hi hr hl, Nat.le_add_left 1 k, hk,
    fun j hj => ⟨_, run j (Nat.le_of_lt_succ hj), rfl⟩, ?_, rfl, Nat.mod_eq_of_lt (by omega),
    fun i hik => ones i (Nat.lt_of_succ_lt_succ hik), ?_⟩
  · rw [engineRun_add (run k le_rfl) 1, engineRun_one, engineStep_querying hl hv,
      queryAdvance_answers hi (h.idle_len hi) last]
  · cases v with
    | false => exact .inr ⟨rfl, hv⟩
    | true =>
      refine .inl ⟨rfl, last rfl, ?_⟩
      unfold allProbesSet
      rw [← last rfl]
      exact probes_below_succ ones hv

/-- Settles O23: the first probe reads 0, which is an answer. -/
theorem emptyFilterMissesAtFirstProbe : Obligations.EmptyFilterMissesAtFirstProbe := by
  intro s len hi hr h0 hw zeros hl
  have zero := zeros (position .chip (itemBytes s len) (BitVec.ofNat 8 0) s.width) (position_lt .chip _ _ hw)
  refine ⟨querying len 0 s, accept_query hi hr hl, ?_⟩
  rw [engineStep_querying hl zero, queryAdvance_answers (v := false) hi h0 nofun]
  rfl

/-! ### No false negatives (R154) -/

section Period

variable {s t : State} {x : List Byte}

/-- While a filter stands, a command in progress ends by an engine step only (R39, R41). -/
theorem engineStep_of_completes (hst : step s = .next t) (hb : s.busy = true) (hi : t.busy = false)
    (hr : t.ready = true) : ∃ l r, engineStep .chip { s with schedule := l, response := r } = .next t := by
  cases step_kind hst with
  | engine l r he => exact ⟨l, r, he⟩
  | reset b _ ht => simp [ht] at hr
  | word _ _ _ idle _ _ => simp [idle] at hb
  | access ha =>
    have same : t.busy = s.busy := by rw [ha.frame]; rfl
    simp [same, hb] at hi

/-- The engine step that completes an INSERT leaves every probe of its item set (R141). -/
theorem Inv.engineStep_inserts (h : Inv .chip s) (ho : s.curOp = .insert) (he : Machine.engineStep .chip s = .next t)
    (hi : t.busy = false) : allProbesSet .chip t (itemBytes s s.curLen.toNat) := by
  have hs : s.ready = true := h.needsFilter (.inl (.inl ho))
  obtain ⟨_, t', _, he', now, _, _, before, last⟩ := insertProbeStep s h ho
  obtain rfl : t' = t := Host.Outcome.next.inj (he'.symm.trans he)
  have hlast : s.idx.toNat + 1 = s.hashCount.toNat := by
    by_contra hne
    rw [before hne] at hi
    simp [State.busy, ho] at hi
  obtain ⟨frame, _⟩ := last hlast
  have ht : t'.ready = true := by rw [frame]; exact hs
  have hw : t'.width = s.width := by rw [frame]
  have hk : t'.hashCount = s.hashCount := by rw [frame]
  unfold allProbesSet
  rw [hw, hk, ← hlast]
  exact probes_below_succ (fun i hi => h.engineStep_bit he hs ht (h.probesSet (.inl ho) i hi))
    (probePosition_eq .chip s ▸ now)

/-- The engine step that completes a QUERY whose probes all read 1 answers true (R151). -/
theorem Inv.engineStep_hits (h : Inv .chip s) (ho : s.curOp = .query) (he : Machine.engineStep .chip s = .next t)
    (hi : t.busy = false) (hx : allProbesSet .chip s (itemBytes s s.curLen.toNat)) : t.hit = true := by
  obtain ⟨b, t', read, he', _, _, last, before⟩ := queryProbeStep s h ho
  obtain rfl : t' = t := Host.Outcome.next.inj (he'.symm.trans he)
  obtain rfl : b = true := by
    have set := hx s.idx.toNat (h.probeLeft (.inr ho))
    rw [← probePosition_eq] at set
    exact Option.some.inj (read.symm.trans set)
  by_cases hlast : s.idx.toNat + 1 = s.hashCount.toNat
  · rw [last rfl hlast]
  · rw [before rfl hlast] at hi
    simp [State.busy, ho] at hi

/-- Within a configured period set bits stay set and the probed positions stay where they are (R21(c), R21(e)). -/
theorem Inv.step_allProbesSet (h : Inv .chip s) (hst : step s = .next t) (hs : s.ready = true) (ht : t.ready = true)
    (hx : allProbesSet .chip s x) : allProbesSet .chip t x := by
  rcases step_configuration hst with ⟨ho, _⟩ | ⟨_, e, _⟩ | ⟨_, e⟩ | ⟨_, hw, hk⟩
  · simp [h.initUnready ho] at hs
  · simp [e] at ht
  · simp [e] at ht
  · unfold allProbesSet
    rw [hw, hk]
    exact fun i hi => bitsAreNeverCleared s t _ h hst hs ht (hx i hi)

theorem SamePeriod.ready_start (hp : SamePeriod s t) : s.ready = true := by
  induction hp with
  | refl hr => exact hr
  | step _ _ _ ih => exact ih

theorem SamePeriod.ready_end (hp : SamePeriod s t) : t.ready = true := by
  cases hp with
  | refl hr => exact hr
  | step _ _ hr => exact hr

theorem SamePeriod.inv (hp : SamePeriod s t) (h : Inv .chip s) : Inv .chip t := by
  induction hp with
  | refl => exact h
  | step _ hst _ ih => exact inv_step ih hst

/-- An item all of whose probes are set stays one throughout the configured period. -/
theorem SamePeriod.keeps_probesSet (hp : SamePeriod s t) (h : Inv .chip s) (hx : allProbesSet .chip s x) :
    allProbesSet .chip t x := by
  induction hp with
  | refl => exact hx
  | step hp hst hr ih => exact (hp.inv h).step_allProbesSet hst hp.ready_end hr ih

end Period

/-- Settles O55: the completed INSERT leaves every probe of its item set, the period keeps them set, and so the QUERY of
the same bytes hits; by the invariant a hit comes after `hash_count` probes. -/
theorem noFalseNegatives : Obligations.NoFalseNegatives := by
  intro s t u v h hins hst hti hp hqry hitem huv hvi hvr
  obtain ⟨l, r, he⟩ := engineStep_of_completes hst (busy_of_probing (.inl hins)) hti hp.ready_start
  have inserted : allProbesSet .chip t (itemBytes s s.curLen.toNat) := (h.elsewhere l r).engineStep_inserts hins he hti
  have hu := hp.inv (inv_step h hst)
  have stillSet : allProbesSet .chip u (itemBytes u u.curLen.toNat) :=
    hitem ▸ hp.keeps_probesSet (inv_step h hst) inserted
  obtain ⟨l', r', he'⟩ := engineStep_of_completes huv (busy_of_probing (.inr hqry)) hvi hvr
  have hit : v.hit = true := (hu.elsewhere l' r').engineStep_hits hqry he' hvi stillSet
  obtain ⟨_, full⟩ := (inv_step hu huv).hitMeans hit
  exact ⟨hit, full⟩

end Sys2Proof.Machine
end

section
/-! PROOFS. The hash index: positions (spec R160, R161, R167) and the anchor values of the reference hash (R164, R165). -/

namespace Sys2Proof.Machine

/-! ### Positions (R161) -/

/-- The remainder by the width takes nothing from a hash value below it. -/
theorem position_eq_hash {c : Params} {x : List Byte} {i : BitVec 8} {width : Word}
    (h : (c.hash x (seedOf i)).toNat < width.toNat) : position c x i width = (c.hash x (seedOf i)).toNat :=
  Nat.mod_eq_of_lt h

/-- Settles O25: a position is a remainder by the width, so it is below a non-zero width, and a hash value below the
width is its own remainder. -/
theorem positionInRange : Obligations.PositionInRange := by
  intro c x i width hw
  exact ⟨position_lt c x i (BitVec.toNat_pos_of_ne_zero hw), position_eq_hash⟩

/-! ### The reference hash, block by block (R164) -/

theorem hashBody_nil (h : Word) : hashBody h [] = h := rfl

theorem hashBody_singleton (h : Word) (a : Byte) : hashBody h [a] = h ^^^ hashScramble (a.setWidth 32) := rfl

theorem hashBody_block (h : Word) (a b d e : Byte) (rest : List Byte) :
    hashBody h (a :: b :: d :: e :: rest) = hashBody (hashBlock h (e ++ d ++ b ++ a)) rest :=
  hashBody.eq_def h (a :: b :: d :: e :: rest)

/-- The empty item has no block, no tail and length 0: its hash is the finalised seed. -/
theorem hashRef_nil (seed : Word) : hashRef [] seed = hashFinish seed := by
  rw [hashRef, hashBody_nil, List.length_nil]
  exact congrArg hashFinish BitVec.xor_zero

/-- Settles O60: the empty item by the finaliser alone, "hello" by one block, a tail of one byte, the length and the
finaliser. -/
theorem referenceHashAnchors : Obligations.ReferenceHashAnchors := by
  refine ⟨?_, ?_, ?_⟩
  · rw [hashRef_nil]
    decide
  · rw [hashRef_nil]
    decide
  · rw [hashRef, hashBody_block, hashBody_singleton]
    decide

end Sys2Proof.Machine
end

section
/-! PROOFS. The host's sizing function (spec 44): its checks on a derived pair (R183) and INIT on a pair they let pass
(R186), and its numbers by arithmetic without error (R185). -/

namespace Sys2Proof.Machine

/-! ### The checks in their order (R183) -/

section Checks

variable {c : Params} {w k : Nat}

theorem checkPair_too_many (hmany : 255 < k) : checkPair c w k = .error .tooManyHashFunctions := if_pos hmany

theorem checkPair_overflow (hk : k ≤ 255) (hwide : 4294967295 < w) : checkPair c w k = .error .bitWidthOverflow := by
  rw [checkPair, if_neg (Nat.not_lt.mpr hk), if_pos hwide]

theorem checkPair_too_wide (hk : k ≤ 255) (hw : w ≤ 4294967295) (hwide : c.maxWidth < w) :
    checkPair c w k = .error .outOfMemory := by
  rw [checkPair, if_neg (Nat.not_lt.mpr hk), if_neg (Nat.not_lt.mpr hw), if_pos hwide]

end Checks

section Derive

variable [DecidablePred rateInRange] {a : HostArith} {c : Params} {f : ℝ} {n : Nat}

/-- Check 1 of R183, on a number. -/
theorem hostDerive_refuses (h : f ≤ 0 ∨ 1 ≤ f ∨ n = 0) :
    hostDerive a c (.number f) n = .error .invalidParameter := by
  rw [hostDerive_number]
  apply if_pos
  rcases h with h | h | h
  · exact .inl fun hf => absurd hf.1 (not_lt.mpr h)
  · exact .inl fun hf => absurd hf.2 (not_lt.mpr h)
  · exact .inr h

/-- Past check 1 the derived pair decides. -/
theorem hostDerive_in_range (hf : rateInRange f) (hn : n ≠ 0) :
    hostDerive a c (.number f) n =
      checkPair c (derivedWidth a f n) (derivedCount a (derivedWidth a f n) n) := by
  rw [hostDerive_number, if_neg (not_or.mpr ⟨not_not.mpr hf, hn⟩)]

/-- A pair that is returned is in the ranges of INIT's checks (R121). -/
theorem hostDerive_ok_ranges {rate : HostRate} {pair : Nat × Nat} (h : hostDerive a c rate n = .ok pair) :
    (1 ≤ pair.1 ∧ pair.1 ≤ c.maxWidth) ∧ 1 ≤ pair.2 ∧ pair.2 ≤ 255 := by
  cases rate with
  | nan => cases h
  | number f =>
    rw [hostDerive_number] at h
    split at h
    · cases h
    · obtain ⟨hk, hw, rfl⟩ := checkPair_eq_ok.mp h
      exact ⟨⟨one_le_clampToOne _, hw⟩, one_le_clampToOne _, hk⟩

end Derive

/-! ### A returned pair, staged (R186) -/

theorem stage_idle {s : State} (hi : s.busy = false) (pair : Nat × Nat) :
    stage pair s = { s with cfgWidth := BitVec.ofNat 32 pair.1, cfgHashCount := BitVec.ofNat 32 pair.2 } := by
  have still : State.busy { s with cfgWidth := BitVec.ofNat 32 pair.1 } = false := hi
  rw [stage, writeCfgWidth_idle hi, writeCfgHashCount_idle still]

/-- A positive number that fits in a word is kept by it. -/
theorem staged_word {x : Nat} (hpos : 1 ≤ x) (hx : x ≤ 4294967295) :
    BitVec.ofNat 32 x ≠ 0 ∧ (BitVec.ofNat 32 x).toNat = x := by
  have value : (BitVec.ofNat 32 x).toNat = x := by rw [BitVec.toNat_ofNat, Nat.mod_eq_of_lt (by omega)]
  exact ⟨BitVec.toNat_ne_iff_ne.mp (by rw [value]; exact Nat.ne_of_gt hpos), value⟩

/-- A pair in range, staged on an idle block without a filter, passes INIT's checks (R121). -/
theorem check_init_staged {c : Params} {pair : Nat × Nat} {s : State} (hi : s.busy = false) (hr : s.ready = false)
    (hw : 1 ≤ pair.1 ∧ pair.1 ≤ c.maxWidth) (hk : 1 ≤ pair.2 ∧ pair.2 ≤ 255) :
    firstFailingCheck c (some .init) (stage pair s) = none := by
  have := c.maxWidth_le
  obtain ⟨width0, width⟩ := staged_word hw.1 (by omega)
  obtain ⟨count0, count⟩ := staged_word hk.1 (by omega)
  rw [stage_idle hi]
  exact check_init_accepts.mpr ⟨hr, width0, count0, count.trans_le hk.2, width.trans_le hw.2⟩

/-- Settles O57: the first failing check of R183 gives the answer, and the ranges of a returned pair are what INIT
checks. -/
theorem hostDerivedPairIsAccepted : Obligations.HostDerivedPairIsAccepted := by
  intro _ a c n
  refine ⟨hostDerive_nan n, fun f h => hostDerive_refuses h, ?_, ?_⟩
  · rintro f w k hf0 hf1 hn rfl rfl
    rw [hostDerive_in_range ⟨hf0, hf1⟩ hn]
    exact ⟨one_le_clampToOne _, one_le_clampToOne _, checkPair_too_many, checkPair_overflow, checkPair_too_wide,
      fun hk hw => checkPair_eq_ok.mpr ⟨hk, hw, rfl⟩⟩
  · intro rate pair s h hi hr
    obtain ⟨hw, hk⟩ := hostDerive_ok_ranges h
    have idle : (stage pair s).busy = false := by rw [stage_idle hi]; exact hi
    exact ⟨_, exec_accepts idle (check_init_staged hi hr hw hk), rfl⟩

/-! ### Arithmetic without error (R181, R182) -/

/-- `raw_w` (R181). -/
noncomputable def rawWidth (f : ℝ) (n : Nat) : ℝ := -(n : ℝ) * Real.log f / Real.log 2 ^ 2

/-- `raw_k` (R182). -/
noncomputable def rawCount (m n : Nat) : ℝ := (m : ℝ) * Real.log 2 / (n : ℝ)

theorem log_two_pos : 0 < Real.log 2 := Real.log_pos one_lt_two

theorem rawWidth_nonneg {f : ℝ} (hf : rateInRange f) (n : Nat) : 0 ≤ rawWidth f n := by
  have hlog : Real.log f ≤ 0 := Real.log_nonpos hf.1.le hf.2.le
  exact div_nonneg (mul_nonneg_of_nonpos_of_nonpos (neg_nonpos.mpr n.cast_nonneg) hlog) (sq_nonneg _)

theorem rawCount_nonneg (m n : Nat) : 0 ≤ rawCount m n :=
  div_nonneg (mul_nonneg m.cast_nonneg log_two_pos.le) n.cast_nonneg

/-- A smaller rate has the larger `raw_w`, for the logarithm is monotone. -/
theorem rawWidth_antitone {f g : ℝ} (hf : 0 < f) (hfg : f ≤ g) (n : Nat) : rawWidth g n ≤ rawWidth f n := by
  have hlog : Real.log f ≤ Real.log g := Real.log_le_log hf hfg
  exact div_le_div_of_nonneg_right (mul_le_mul_of_nonpos_left hlog (neg_nonpos.mpr n.cast_nonneg)) (sq_nonneg _)

/-- The clamped truncation of a real number that is not negative is its floor, or 1 where that is 0. -/
theorem clampToOne_of_truncates {x : ℝ} {z : Int} (hx : 0 ≤ x) (h : truncates x z) : clampToOne z = max 1 ⌊x⌋₊ := by
  obtain rfl : ⌊x⌋ = z := Int.floor_eq_iff.mpr (h.1 hx)
  rw [clampToOne, ← Int.floor_toNat]
  split <;> omega

section Exact

variable {a : HostArith} (ha : exactArith a)
include ha

theorem exactArith.derivedWidth_eq {f : ℝ} (hf : rateInRange f) {n : Nat} (hn : 0 < n) :
    derivedWidth a f n = max 1 ⌊rawWidth f n⌋₊ :=
  clampToOne_of_truncates (rawWidth_nonneg hf n) (ha.1 f n hf hn)

theorem exactArith.derivedCount_eq (m : Nat) {n : Nat} (hn : 0 < n) : derivedCount a m n = max 1 ⌊rawCount m n⌋₊ :=
  clampToOne_of_truncates (rawCount_nonneg m n) (ha.2 m n hn)

/-- Bounds on `raw_w` are bounds on the width. -/
theorem exactArith.derivedWidth_mem {f : ℝ} (hf : rateInRange f) {n lo hi : Nat} (hn : 0 < n) (hhi : 1 ≤ hi)
    (hlow : lo ≤ rawWidth f n) (hhigh : rawWidth f n < hi + 1) :
    lo ≤ derivedWidth a f n ∧ derivedWidth a f n ≤ hi := by
  have floor_le : ⌊rawWidth f n⌋₊ < hi + 1 := Nat.floor_lt (rawWidth_nonneg hf n) |>.mpr (by exact_mod_cast hhigh)
  rw [ha.derivedWidth_eq hf hn]
  exact ⟨le_max_of_le_right (Nat.le_floor hlow), max_le hhi (Nat.le_of_lt_succ floor_le)⟩

/-- The hash count is the whole part `k` of `raw_k`, or 1 where that is 0. -/
theorem exactArith.derivedCount_eq_max {m n k : Nat} (hn : 0 < n) (hlow : k ≤ rawCount m n)
    (hhigh : rawCount m n < k + 1) : derivedCount a m n = max 1 k := by
  rw [ha.derivedCount_eq m hn, (Nat.floor_eq_iff (rawCount_nonneg m n)).mpr ⟨hlow, hhigh⟩]

end Exact

/-- Settles O59: the larger `raw_w` of the smaller rate has the larger floor. -/
theorem hostWidthIsMonotone : Obligations.HostWidthIsMonotone := by
  intro a f g n ha hf hfg hg hn
  rw [ha.derivedWidth_eq ⟨hf.trans_le hfg, hg⟩ hn, ha.derivedWidth_eq ⟨hf, hfg.trans_lt hg⟩ hn]
  exact max_le_max_left 1 (Nat.floor_mono (rawWidth_antitone hf hfg n))

/-! ### The document's examples (R185) -/

theorem log_two_sq_bounds : 0.48 < Real.log 2 ^ 2 ∧ Real.log 2 ^ 2 < 0.481 := by
  have low := Real.log_two_gt_d9
  have high := Real.log_two_lt_d9
  constructor <;> nlinarith

theorem log_ten_bounds : 2.302 < Real.log 10 ∧ Real.log 10 < 2.303 := by
  have low₂ := Real.log_two_gt_d9
  have high₂ := Real.log_two_lt_d9
  have low₅ := Real.log_five_gt_d9
  have high₅ := Real.log_five_lt_d9
  rw [Real.log_ten_eq]
  constructor <;> linarith

/-- `raw_w` at the rate `1 / 10^d`. -/
theorem rawWidth_tenth_pow (d n : Nat) : rawWidth (1 / 10 ^ d) n = n * d * Real.log 10 / Real.log 2 ^ 2 := by
  rw [rawWidth, one_div, Real.log_inv, Real.log_pow]
  ring

section Examples

variable {a : HostArith} (ha : exactArith a)
include ha

/-- The width at the rate `1 / 10^d`, in range when it is so for the bounds of `ln 10` and `(ln 2)^2`. -/
theorem exactArith.derivedWidth_tenth_pow {d n lo hi : Nat} (hd : 0 < d) (hn : 0 < n) (hhi : 1 ≤ hi)
    (hlow : 481 * lo ≤ 2302 * (n * d)) (hhigh : 2303 * (n * d) < 480 * (hi + 1)) :
    lo ≤ derivedWidth a (1 / 10 ^ d) n ∧ derivedWidth a (1 / 10 ^ d) n ≤ hi := by
  have in_range : rateInRange (1 / 10 ^ d) :=
    ⟨by positivity, (div_lt_one (by positivity)).mpr (one_lt_pow₀ (by norm_num) hd.ne')⟩
  have low : (481 : ℝ) * lo ≤ 2302 * (n * d) := by exact_mod_cast hlow
  have high : (2303 : ℝ) * (n * d) < 480 * (hi + 1) := by exact_mod_cast hhigh
  have sq_pos : 0 < Real.log 2 ^ 2 := sq_pos_of_pos log_two_pos
  obtain ⟨sq_low, sq_high⟩ := log_two_sq_bounds
  obtain ⟨ten_low, ten_high⟩ := log_ten_bounds
  apply ha.derivedWidth_mem in_range hn hhi <;> rw [rawWidth_tenth_pow]
  · rw [le_div_iff₀ sq_pos]
    calc (lo : ℝ) * Real.log 2 ^ 2 ≤ lo * 0.481 := by gcongr
      _ ≤ n * d * 2.302 := by linarith
      _ ≤ n * d * Real.log 10 := by gcongr
  · rw [div_lt_iff₀ sq_pos]
    calc n * d * Real.log 10 ≤ n * d * 2.303 := by gcongr
      _ < (hi + 1) * 0.48 := by linarith
      _ ≤ (hi + 1) * Real.log 2 ^ 2 := by gcongr

/-- The hash count, when `k` is the whole part for both bounds of `ln 2`. -/
theorem exactArith.derivedCount_of_bounds {m n k : Nat} (hn : 0 < n) (hlow : 1000 * (k * n) ≤ 693 * m)
    (hhigh : 694 * m < 1000 * ((k + 1) * n)) : derivedCount a m n = max 1 k := by
  have npos : (0 : ℝ) < n := by exact_mod_cast hn
  have low : (1000 : ℝ) * (k * n) ≤ 693 * m := by exact_mod_cast hlow
  have high : (694 : ℝ) * m < 1000 * ((k + 1) * n) := by exact_mod_cast hhigh
  have two_low : 0.693 ≤ Real.log 2 := by linarith [Real.log_two_gt_d9]
  have two_high : Real.log 2 ≤ 0.694 := by linarith [Real.log_two_lt_d9]
  apply ha.derivedCount_eq_max hn <;> rw [rawCount]
  · rw [le_div_iff₀ npos]
    calc (k : ℝ) * n ≤ m * 0.693 := by linarith
      _ ≤ m * Real.log 2 := by gcongr
  · rw [div_lt_iff₀ npos]
    calc m * Real.log 2 ≤ m * 0.694 := by gcongr
      _ < (k + 1) * n := by linarith

end Examples

/-- Near the rate 1 the logarithm is small: `raw_w` is below 1 for one item at the rate 0.999. -/
theorem rawWidth_degenerate : rawWidth (999 / 1000) 1 < 1 := by
  have hlog : 1 - (999 / 1000 : ℝ)⁻¹ ≤ Real.log (999 / 1000) := Real.one_sub_inv_le_log_of_pos (by norm_num)
  obtain ⟨sq_low, _⟩ := log_two_sq_bounds
  rw [rawWidth, div_lt_one (sq_pos_of_pos log_two_pos)]
  norm_num at hlog ⊢
  linarith

/-- The width of R185(d). -/
theorem exactArith.derivedWidth_degenerate {a : HostArith} (ha : exactArith a) :
    derivedWidth a (999 / 1000) 1 = 1 := by
  rw [ha.derivedWidth_eq ⟨by norm_num, by norm_num⟩ one_pos, Nat.floor_eq_zero.mpr rawWidth_degenerate]
  rfl

/-- Settles O58: the rates 0.01 and 0.1 are powers of a tenth, and the bounds of `ln 2` and `ln 10` decide each
number. -/
theorem hostSizingExamples : Obligations.HostSizingExamples := by
  intro a ha
  have hundredth : (1 / 100 : ℝ) = 1 / 10 ^ 2 := by norm_num
  have tenth : (1 / 10 : ℝ) = 1 / 10 ^ 1 := by norm_num
  rw [hundredth, tenth]
  exact ⟨ha.derivedWidth_tenth_pow (by decide) (by decide) (by decide) (by decide) (by decide),
    ha.derivedWidth_tenth_pow (by decide) (by decide) (by decide) (by decide) (by decide),
    ha.derivedCount_of_bounds (k := 6) (by decide) (by decide) (by decide),
    ha.derivedCount_of_bounds (k := 3) (by decide) (by decide) (by decide),
    ha.derivedWidth_degenerate,
    ha.derivedCount_of_bounds (k := 0) (by decide) (by decide) (by decide)⟩

end Sys2Proof.Machine
end

section
/-! PROOFS. The rejections of a command word (spec R195, R196, R198, R199, R203): which check fails first, and that the
word has no effect but the outcome flags. INIT's own checks stand with INIT (R121). -/

namespace Sys2Proof.Machine

/-! ### The first failing check -/

section Checks

variable {c : Params} {s : State} {len : Nat}

/-- Without a filter every command but INIT stops at its first check (R196, R201). -/
theorem check_without_filter {i : Instr} (hn : i ≠ .init) (hr : s.ready = false) :
    firstFailingCheck c (some i) s = some .notConfigured := by
  have missing : (!s.ready) = true := by rw [hr]; rfl
  cases i with
  | init => exact absurd rfl hn
  | insert len => rw [firstFailingCheck_insert, if_pos missing]
  | query len => rw [firstFailingCheck_query, if_pos missing]
  | release => rw [firstFailingCheck_release, if_pos missing]

/-- With a filter the length and the counter decide INSERT. -/
theorem check_insert_with_filter (hr : s.ready = true) :
    firstFailingCheck c (some (.insert len)) s =
      if c.itemMax < len then some .itemTooLong
      else if s.itemCount = itemCountMax then some .countOverflow
      else none := by
  rw [firstFailingCheck_insert, if_neg (by rw [hr]; nofun)]

/-- The length comes before the counter: an INSERT that is too long is so on a full counter too (R201). -/
theorem check_insert_too_long (hr : s.ready = true) (hlong : c.itemMax < len) :
    firstFailingCheck c (some (.insert len)) s = some .itemTooLong := by
  rw [check_insert_with_filter hr, if_pos hlong]

theorem check_insert_full_counter (hr : s.ready = true) (hl : len ≤ c.itemMax) (hc : s.itemCount.toNat = 2 ^ 64 - 1) :
    firstFailingCheck c (some (.insert len)) s = some .countOverflow := by
  rw [check_insert_with_filter hr, if_neg (Nat.not_lt.mpr hl), if_pos (itemCountMax_iff.mpr hc)]

theorem check_query_too_long (hr : s.ready = true) (hlong : c.itemMax < len) :
    firstFailingCheck c (some (.query len)) s = some .itemTooLong := by
  rw [firstFailingCheck_query, if_neg (by rw [hr]; nofun), if_pos hlong]

/-- A word that decodes to no command reaches the checks as an illegal one (R104, R106). -/
theorem writeCmd_illegal {ex : Instr → State → Result} {w : Word} {reason : IllegalWord} (hi : s.busy = false)
    (hd : decode w = .error reason) : writeCmd c ex w s = .next (illegalWord c s) := by
  simp [writeCmd, hi, hd]

/-- An illegal word fails the first check of all, whatever the state is (R195, R201). -/
theorem illegalWord_rejects (hi : s.busy = false) : illegalWord c s = rejectedWith 5 s :=
  commandWord_rejects (d := none) (e := .illegalCommand) hi rfl

end Checks

/-! ### The words -/

/-- Settles O9: the write is answered, the word is illegal, and an illegal word is rejected. -/
theorem illegalWordRejected : Obligations.IllegalWordRejected := fun s _ _ rest hs hi hd =>
  (step_command hs).trans ((writeCmd_illegal (s := written s rest) hi hd).trans
    (congrArg Host.Outcome.next (illegalWord_rejects (s := written s rest) hi)))

/-- Every command but INIT needs a filter (R196). -/
theorem exec_without_filter {i : Instr} {s : State} (hn : i ≠ .init) (hi : s.busy = false) (hr : s.ready = false) :
    exec i s = .next (rejectedWith 6 s) :=
  exec_rejects hi (check_without_filter hn hr)

/-- Settles O11: none of the three commands is INIT. -/
theorem noFilterRejected : Obligations.NoFilterRejected := fun _ hi hr =>
  ⟨fun _ => exec_without_filter nofun hi hr, fun _ => exec_without_filter nofun hi hr,
    exec_without_filter nofun hi hr⟩

/-- Settles O12: the length fails its check for both commands. -/
theorem longItemRejected : Obligations.LongItemRejected := fun _ _ hi hr hlong =>
  ⟨exec_rejects hi (check_insert_too_long hr hlong), exec_rejects hi (check_query_too_long hr hlong)⟩

/-- Settles O13: the counter is a check of INSERT and none of QUERY. -/
theorem fullCounterRejectsInsert : Obligations.FullCounterRejectsInsert := fun _ _ hi hr hl hc =>
  ⟨exec_rejects hi (check_insert_full_counter hr hl hc), exec_accepts hi (check_query_accepts.mpr ⟨hr, hl⟩)⟩

end Sys2Proof.Machine
end

section
/-! PROOFS. Reset (spec R220 to R222): what a hardware reset leaves, that a soft reset is one, and that only INIT is
accepted after it. -/

namespace Sys2Proof.Machine

/-! ### What can be seen of a block that was reset -/

/-- `resetBlock_item` leaves no byte listed, and such a byte reads 0 (R20). -/
@[simp] theorem memRead_nil (n : Nat) : memRead [] n = 0 := rfl

@[simp] theorem bitRead_resetBlock (s : State) (p : Nat) : bitRead (resetBlock s) p = none :=
  bitRead_without_array (resetBlock_bitArray s) p

@[simp] theorem irq_resetBlock (s : State) : irq (resetBlock s) = false := rfl

/-- The answer to the write that asks for a soft reset survives it: it belongs to the host (R10). -/
theorem resetBlock_written (s : State) (rest : List Event) :
    resetBlock (written s rest) = respond (.write .okay) (resetBlock { s with schedule := rest }) := rfl

/-! ### The obligations -/

/-- Settles O46: the step is `resetBlock`, whose laws say what each element is. -/
theorem hardwareReset : Obligations.HardwareReset := by
  intro s rest hs
  refine ⟨_, step_reset hs, ?_⟩
  simp

/-- Settles O47: the write of `CTRL` resets the block after it is answered, and the answer stays. -/
theorem softResetIsHardwareReset : Obligations.SoftResetIsHardwareReset := by
  intro s v rest hv
  have soft : step { s with schedule := .regWrite 0x00C v :: rest } = .next (resetBlock (written s rest)) :=
    (step_writeCtrl rfl).trans (congrArg _ (writeCtrl_reset hv))
  exact ⟨_, _, soft, step_reset rfl, resetBlock_written s rest, resetBlock_viol _, busy_resetBlock _,
    resetBlock_done _, resetBlock_ready _⟩

/-- Settles O48: INIT is free to go either way; any other command is rejected, and a rejection leaves the block idle. -/
theorem onlyInitAfterReset : Obligations.OnlyInitAfterReset := by
  intro s w i hr hi hd
  have runs : step { s with schedule := [.regWrite 0x030 w] } = exec i (written s []) :=
    commandStepRunsDecodedInstruction _ w i [] rfl hi hd
  by_cases hn : i = .init
  · exact ⟨_, runs.trans (exec_eq i _), fun _ => hn, fun other => absurd hn other⟩
  · have idle : (rejectedWith 6 (written s [])).busy = false := hi
    refine ⟨_, runs.trans (exec_without_filter hn hi hr), fun busy => ?_, fun _ => rfl⟩
    rw [idle] at busy
    cases busy

end Sys2Proof.Machine
end
